-- ==== Sys2Proof/Word.lean ====
section
/-! DEFINITION. The word types of the block (spec/00_scope.md R4, spec/30_encoding.md R40, R46). -/

namespace Sys2Proof

/-- A byte of a serialised word (R27). -/
abbrev Byte := BitVec 8

/-- The command word `CW`, `CW_W` = 128 bits (R40). -/
abbrev CommandWord := BitVec 128

/-- The response word `RW`, `RW_W` = 32 bits (R46). -/
abbrev ResponseWord := BitVec 32

/-- The channel operand, `CH_W` = 8 bits; 0 to 15 name channels, 16 to 255 name nothing (R25, R41). -/
abbrev Channel := BitVec 8

/-- A 16-bit set of channel indices: bit `c` is channel `c` (R11, R41). -/
abbrev ChannelMask := BitVec 16

/-- The pattern of an IEEE 754 binary32 value, the format `ANGLE_FMT` of every angle (R41, R65). -/
abbrev F32Bits := BitVec 32

/-- A pulse width in microseconds, `PULSE_W` = 16 bits, unsigned (R65). -/
abbrev PulseWidth := BitVec 16

/-- A duty (compare) value in counts, `DUTY_W` = 18 bits, unsigned (R65). -/
abbrev DutyValue := BitVec 18

/-- A sweep step delay in milliseconds, `DELAY_W` = 32 bits, unsigned (R4, R41). -/
abbrev DelayMs := BitVec 32

end Sys2Proof
end

