-- ==== Sys2Proof/Config.lean ====
section
/-! DEFINITION. What is fixed for one block: the parameters and hardwired constants (spec/00_scope.md R4,
spec/10_state.md R14), and the values the spec leaves free. The record's values are given in
Machine/Parameters.lean and Machine/Operands.lean. -/

namespace Sys2Proof

/-- The format of an angle and of all angle arithmetic, `ANGLE_FMT` (R4, D10). -/
inductive AngleFormat where
  /-- IEEE 754 binary32. -/
  | binary32
deriving DecidableEq, Repr

/-- The parameters of R4 and the hardwired constants of R14, by the spec's names. `PULSE_W` and the other
widths are kept here as numbers too, because the assembler's range checks compute with them. -/
structure Constants where
  /-- `NCH`: number of channels. -/
  nch : Nat
  /-- `MASK_W`: width of `INIT_MASK` and of the operand of `INIT`. -/
  maskW : Nat
  /-- `CH_W`: width of the channel operand. -/
  chW : Nat
  /-- `ANGLE_FMT`: format of angle operands and of all angle arithmetic. -/
  angleFmt : AngleFormat
  /-- `PULSE_W`: width of a pulse width. -/
  pulseW : Nat
  /-- `DUTY_W`: width of a duty value. -/
  dutyW : Nat
  /-- `DELAY_W`: width of the sweep step delay. -/
  delayW : Nat
  /-- `CW_W`: width of the command word. -/
  cwW : Nat
  /-- `RW_W`: width of the response word. -/
  rwW : Nat
  /-- `SLICE_W`: width of the opaque slice handle; OPEN (D28). -/
  sliceW : Nat
  /-- `MIN_PULSE_US`: pulse width at 0 degrees, microseconds. -/
  minPulseUs : Nat
  /-- `MAX_PULSE_US`: pulse width at 180 degrees, microseconds. -/
  maxPulseUs : Nat
  /-- `ANGLE_MIN`: lower clamp bound, degrees. -/
  angleMin : Nat
  /-- `ANGLE_MAX`: upper clamp bound, degrees, and divisor of the interpolation. -/
  angleMax : Nat
  /-- `CENTER_ANGLE`: the angle `INIT` commands, degrees. -/
  centerAngle : Nat
  /-- `K`: duty scale numerator, counts per 1000 microseconds. -/
  k : Nat
  /-- `KDIV`: duty scale divisor. -/
  kdiv : Nat
  /-- `CLKDIV`: the clock divider passed to `Configure`, as the binary32 pattern R48 gives it. -/
  clkdiv : F32Bits
  /-- `ADV_LO`: lowest pulse width not flagged unusual. -/
  advLo : Nat
  /-- `ADV_HI`: highest pulse width not flagged unusual. -/
  advHi : Nat
  /-- `SWEEP_STEP`: magnitude of the sweep increment, degrees. -/
  sweepStep : Nat
  /-- `FREQUENCY_HZ`: a named constant; no rule computes with it (R14). -/
  frequencyHz : Nat
deriving DecidableEq, Repr

/-- The configuration record. R68 asks that the angle arithmetic be a field of it: `none` says that the
spec gives the angle no pulse width (a NaN, R69). -/
structure Config extends Constants where
  /-- `AngleToPulse` (R67, R68). -/
  angleToPulse : F32Bits → Option PulseWidth

/-- FREE VALUE. `SLICE_W`, which is OPEN: the handle type is whatever this width makes it (R4, D28). Log 8. -/
opaque Config.sliceWidth : Nat

/-- The opaque handle `bind` returns (R48, R113): `SLICE_W` bits, with which the block never computes. That it
is a pattern of bits is DESIGN CHOICE, log 8. -/
structure SliceHandle where
  id : BitVec Config.sliceWidth
deriving DecidableEq, Repr, Inhabited

/-- FREE VALUE. The handle the backend returns from `Bind(c)`. A function of the channel, because `bind` is
"idempotent per channel" (R29, R113); nothing says that two channels get distinct handles. DEDUCED, log 8. -/
opaque Config.sliceOf : Channel → SliceHandle

/-- FREE VALUE. The `n`-th draw of an arbitrary duty value, for an angle the spec gives no pulse width
(R69, U1), as a count. "duty values are at most 215544" (R118) is the one limit on it. Log 9. -/
opaque Config.freeDuty : Nat → Fin 215545

end Sys2Proof
end

