-- ==== Sys2Proof/Syntax.lean ====
section
/-! DEFINITION. The five commands as syntax (spec/30_encoding.md R40 to R42), and the assembler's calls
(R50). -/

namespace Sys2Proof

/-- A command of the boundary API, one constructor per row of the opcode table (R42). Operands are the
command word's fields whole (R41), so every term is a legal command. -/
inductive Instr where
  /-- `INIT`, `OP = 0x01`: operand `MASK`. -/
  | init (mask : ChannelMask)
  /-- `ISINIT`, `OP = 0x02`: operand `CH`. -/
  | isinit (ch : Channel)
  /-- `SETANGLE`, `OP = 0x03`: operands `CH`, `ANGLE`. -/
  | setangle (ch : Channel) (angle : F32Bits)
  /-- `SETPULSE`, `OP = 0x04`: operands `CH`, `PULSE`. -/
  | setpulse (ch : Channel) (pulse : PulseWidth)
  /-- `SWEEP`, `OP = 0x05`: operands `CH`, `START`, `END`, `DELAY_MS`. -/
  | sweep (ch : Channel) (start stop : F32Bits) (delay : DelayMs)
deriving DecidableEq, Repr

/-- A decimal number of assembly text (R50): `num / den`, negated if `neg`. -/
structure Decimal where
  neg : Bool
  num : Nat
  den : Nat
deriving DecidableEq, Repr

/-- A call in D0's own syntax, as R50 writes a command: operands are numbers of assembly text and may be out
of range. -/
inductive Call where
  /-- `init(<mask>)` -/
  | init (mask : Nat)
  /-- `is_initialized(<channel>)` -/
  | isInitialized (channel : Nat)
  /-- `set_angle(<channel>, <angle>)` -/
  | setAngle (channel : Nat) (angle : Decimal)
  /-- `set_pulse_us(<channel>, <pulse>)` -/
  | setPulseUs (channel pulse : Nat)
  /-- `sweep(<channel>, <start>, <end>, <delay>)` -/
  | sweep (channel : Nat) (start stop : Decimal) (delay : Nat)
deriving DecidableEq, Repr

end Sys2Proof
end

