-- ==== Sys2Proof/WellFormed.lean ====
section
/-! DEFINITION. Well-formedness. An `Instr` holds each field at its exact width, so each one is well formed
(spec/30_encoding.md R41); a call of assembly text is checked against the operand ranges of R50. -/

namespace Sys2Proof

/-- Every combination of operand values is a legal command: "Every bit pattern is accepted by the decoder"
(R41). -/
def Instr.wellFormed : Instr → Bool
  | .init _ => true
  | .isinit _ => true
  | .setangle _ _ => true
  | .setpulse _ _ => true
  | .sweep _ _ _ _ => true

/-- A decimal number has a denominator. -/
def Decimal.wellFormed (d : Decimal) : Bool := d.den != 0

/-- The operand ranges of R50: a 16-bit mask, a channel 0 to 255, a pulse 0 to 65535, a delay 0 to
2^32 - 1. -/
def Call.wellFormed (c : Constants) : Call → Bool
  | .init mask => decide (mask < 2 ^ c.maskW)
  | .isInitialized ch => decide (ch < 2 ^ c.chW)
  | .setAngle ch a => decide (ch < 2 ^ c.chW) && a.wellFormed
  | .setPulseUs ch p => decide (ch < 2 ^ c.chW) && decide (p < 2 ^ c.pulseW)
  | .sweep ch a b d =>
    decide (ch < 2 ^ c.chW) && a.wellFormed && b.wellFormed && decide (d < 2 ^ c.delayW)

end Sys2Proof
end

