-- ==== Sys2Proof/Decode.lean ====
section
/-! DEFINITION. Decoding and encoding of command words (spec/30_encoding.md R40 to R45), and their
serialisation into bytes (spec/20_memory.md R27). -/

namespace Sys2Proof

/-! ### Fields of the command word (R40) -/

/-- `OP = CW[7:0]`. -/
def fieldOp (w : CommandWord) : BitVec 8 := w.extractLsb' 0 8
/-- `CH = CW[15:8]`. -/
def fieldCh (w : CommandWord) : BitVec 8 := w.extractLsb' 8 8
/-- `H = CW[31:16]`. -/
def fieldH (w : CommandWord) : BitVec 16 := w.extractLsb' 16 16
/-- `W0 = CW[63:32]`. -/
def fieldW0 (w : CommandWord) : BitVec 32 := w.extractLsb' 32 32
/-- `W1 = CW[95:64]`. -/
def fieldW1 (w : CommandWord) : BitVec 32 := w.extractLsb' 64 32
/-- `W2 = CW[127:96]`. -/
def fieldW2 (w : CommandWord) : BitVec 32 := w.extractLsb' 96 32

/-- Why a word is illegal (R44). -/
inductive DecodeError where
  /-- `OP = 0x00` or `OP` in `0x06` to `0xFF` (R44, R45). -/
  | reservedOpcode (op : BitVec 8)
  /-- A field the command does not use is not zero (R43). -/
  | unusedFieldNotZero (op : BitVec 8)
deriving DecidableEq, Repr

/-- Decoding of one command word, total (R42 to R44). -/
def decode (w : CommandWord) : Except DecodeError Instr :=
  if fieldOp w = 0x01#8 then
    if fieldCh w = 0 ∧ fieldW0 w = 0 ∧ fieldW1 w = 0 ∧ fieldW2 w = 0 then
      .ok (.init (fieldH w))
    else .error (.unusedFieldNotZero (fieldOp w))
  else if fieldOp w = 0x02#8 then
    if fieldH w = 0 ∧ fieldW0 w = 0 ∧ fieldW1 w = 0 ∧ fieldW2 w = 0 then
      .ok (.isinit (fieldCh w))
    else .error (.unusedFieldNotZero (fieldOp w))
  else if fieldOp w = 0x03#8 then
    if fieldH w = 0 ∧ fieldW1 w = 0 ∧ fieldW2 w = 0 then
      .ok (.setangle (fieldCh w) (fieldW0 w))
    else .error (.unusedFieldNotZero (fieldOp w))
  else if fieldOp w = 0x04#8 then
    if fieldW0 w = 0 ∧ fieldW1 w = 0 ∧ fieldW2 w = 0 then
      .ok (.setpulse (fieldCh w) (fieldH w))
    else .error (.unusedFieldNotZero (fieldOp w))
  else if fieldOp w = 0x05#8 then
    if fieldH w = 0 then
      .ok (.sweep (fieldCh w) (fieldW0 w) (fieldW1 w) (fieldW2 w))
    else .error (.unusedFieldNotZero (fieldOp w))
  else .error (.reservedOpcode (fieldOp w))

/-! ### The encoder, from the layout of R40 and the opcode map of R42 -/

/-- The word `{W2, W1, W0, H, CH, OP}` (R40). -/
def commandWord (op ch : BitVec 8) (h : BitVec 16) (w0 w1 w2 : BitVec 32) : CommandWord :=
  w2 ++ w1 ++ w0 ++ h ++ ch ++ op

/-- The word of a command; a field the command does not use is zero (R40, R42, R43). -/
def encode : Instr → CommandWord
  | .init mask => commandWord 0x01#8 0 mask 0 0 0
  | .isinit ch => commandWord 0x02#8 ch 0 0 0 0
  | .setangle ch angle => commandWord 0x03#8 ch 0 angle 0 0
  | .setpulse ch pulse => commandWord 0x04#8 ch pulse 0 0 0
  | .sweep ch start stop delay => commandWord 0x05#8 ch 0 start stop delay

/-! ### The opcode map as match and mask (R42, second table) -/

/-- A row of R42's second table: a word `w` selects the row when `w AND mask = match`. -/
structure OpcodeRow where
  mnemonic : String
  matchWord : CommandWord
  maskWord : CommandWord
deriving DecidableEq, Repr

/-- R42's second table, as written there. -/
def opcodeRows : List OpcodeRow :=
  [ ⟨"INIT", 0x00000000000000000000000000000001, 0xFFFFFFFFFFFFFFFFFFFFFFFF0000FFFF⟩,
    ⟨"ISINIT", 0x00000000000000000000000000000002, 0xFFFFFFFFFFFFFFFFFFFFFFFFFFFF00FF⟩,
    ⟨"SETANGLE", 0x00000000000000000000000000000003, 0xFFFFFFFFFFFFFFFF00000000FFFF00FF⟩,
    ⟨"SETPULSE", 0x00000000000000000000000000000004, 0xFFFFFFFFFFFFFFFFFFFFFFFF000000FF⟩,
    ⟨"SWEEP", 0x00000000000000000000000000000005, 0x000000000000000000000000FFFF00FF⟩ ]

/-- `w` selects the row. -/
def OpcodeRow.selects (r : OpcodeRow) (w : CommandWord) : Bool := w &&& r.maskWord == r.matchWord

/-- The mnemonic of a command in the opcode table. -/
def Instr.mnemonic : Instr → String
  | .init _ => "INIT"
  | .isinit _ => "ISINIT"
  | .setangle _ _ => "SETANGLE"
  | .setpulse _ _ => "SETPULSE"
  | .sweep _ _ _ _ => "SWEEP"

/-! ### Serialisation into bytes: little-endian (R27) -/

/-- The sixteen bytes of a command word, byte 0 (bits 7 to 0) first. -/
def bytesOfWord (w : CommandWord) : List Byte :=
  (List.range 16).map fun i => w.extractLsb' (8 * i) 8

/-- The number whose little-endian bytes are given. -/
def natOfBytes : List Byte → Nat
  | [] => 0
  | b :: bs => b.toNat + 256 * natOfBytes bs

/-- Decoding from bytes: the command in the first sixteen, and the bytes after them; `none` where there are
fewer than sixteen. There is one command length (R40, R45). -/
def decodeBytes (bs : List Byte) : Option (Except DecodeError Instr × List Byte) :=
  if bs.length < 16 then none
  else some (decode (BitVec.ofNat 128 (natOfBytes (bs.take 16))), bs.drop 16)

/-- The command the decoder reads from a word given as a number of `nbits` bits, every higher bit zero. -/
def decodeTableWord (nbits w : Nat) : Option Instr :=
  match decodeBytes (bytesOfWord (BitVec.ofNat 128 (w % 2 ^ nbits))) with
  | some (.ok i, _) => some i
  | some (.error _, _) => none
  | none => none

end Sys2Proof
end

