-- ==== Sys2Proof/Machine/Float32.lean ====
section
/-! DEFINITION. IEEE 754 binary32 as the spec uses it (spec/00_scope.md section 6, spec/41_conversion.md R65,
R68): the four operations correctly rounded to nearest, ties to even, subnormals exact, no trap and no flag;
the comparisons; `trunc`. Every finite binary32 value is a whole number of units of 2^-149, so a magnitude is
a `Nat` of such units and every operation is exact arithmetic followed by one rounding. -/

namespace Sys2Proof.Machine.F32

/-- The value of a binary32 pattern: `(-1)^neg * mag * 2^-149` when finite. -/
inductive Val where
  | nan
  | inf (neg : Bool)
  | fin (neg : Bool) (mag : Nat)
deriving DecidableEq, Repr

/-- Units in 1.0. -/
def one : Nat := 2 ^ 149

/-- The first magnitude beyond the finite range: 2^128 in units. -/
def limit : Nat := 2 ^ 128 * one

/-- `f32_of_bits`. -/
def ofBits (b : F32Bits) : Val :=
  let neg := b.getLsbD 31
  let e := (b.extractLsb' 23 8).toNat
  let f := (b.extractLsb' 0 23).toNat
  if e = 255 then (if f = 0 then .inf neg else .nan)
  else if e = 0 then .fin neg f
  else .fin neg ((2 ^ 23 + f) * 2 ^ (e - 1))

/-- How many low bits of a magnitude lie below its 24-bit significand. -/
def scale (mag : Nat) : Nat := mag.log2 - 23

/-- The low 31 bits of the pattern of a representable finite magnitude: the exponent field counts the scale,
and adding a significand of 2^23 or more carries into it. -/
def magBits (mag : Nat) : Nat := scale mag * 2 ^ 23 + mag / 2 ^ scale mag

/-- `bits_of_f32`, the inverse of `ofBits` on values that are no NaN. A NaN gets the quiet pattern
`0x7FC00000`: DESIGN CHOICE, log 16, seen by nothing. -/
def toBits : Val → F32Bits
  | .nan => 0x7FC00000
  | .inf neg => BitVec.ofNat 32 ((if neg then 2 ^ 31 else 0) + 255 * 2 ^ 23)
  | .fin neg mag => BitVec.ofNat 32 ((if neg then 2 ^ 31 else 0) + magBits mag)

/-- The whole number nearest to `n / d`, a tie to the even one. -/
def roundQuot (n d : Nat) : Nat :=
  let q := n / d
  let r := n % d
  if 2 * r < d then q
  else if d < 2 * r then q + 1
  else q + q % 2

/-- The binary32 magnitude nearest to `n / d` units, a tie to the even significand, as if the exponent had no
upper bound. -/
def roundMag (n d : Nat) : Nat :=
  let s := scale (n / d)
  roundQuot n (d * 2 ^ s) * 2 ^ s

/-- A rounded magnitude as a value; beyond the finite range it is an infinity. -/
def finish (neg : Bool) (mag : Nat) : Val :=
  if mag < limit then .fin neg mag else .inf neg

/-- The integer, in units, that a finite value stands for. -/
def signed (neg : Bool) (mag : Nat) : Int := if neg then -(mag : Int) else (mag : Int)

/-- `a (+) b` on values. The sum of two zeros keeps their sign if it is the same; an exact zero sum of
non-zero values is `+0`. -/
def addVal : Val → Val → Val
  | .nan, _ => .nan
  | _, .nan => .nan
  | .inf n, .inf m => if n = m then .inf n else .nan
  | .inf n, .fin _ _ => .inf n
  | .fin _ _, .inf m => .inf m
  | .fin n a, .fin m b =>
    let t := signed n a + signed m b
    if t = 0 then .fin (n && m) 0
    else finish (decide (t < 0)) (roundMag t.natAbs 1)

/-- The value with its sign turned. -/
def negVal : Val → Val
  | .nan => .nan
  | .inf n => .inf (!n)
  | .fin n a => .fin (!n) a

/-- `a (-) b` on values. -/
def subVal (a b : Val) : Val := addVal a (negVal b)

/-- `a (*) b` on values. -/
def mulVal : Val → Val → Val
  | .nan, _ => .nan
  | _, .nan => .nan
  | .inf n, .inf m => .inf (n != m)
  | .inf n, .fin m b => if b = 0 then .nan else .inf (n != m)
  | .fin n a, .inf m => if a = 0 then .nan else .inf (n != m)
  | .fin n a, .fin m b => finish (n != m) (roundMag (a * b) one)

/-- `a (/) b` on values. -/
def divVal : Val → Val → Val
  | .nan, _ => .nan
  | _, .nan => .nan
  | .inf _, .inf _ => .nan
  | .inf n, .fin m _ => .inf (n != m)
  | .fin n _, .inf m => .fin (n != m) 0
  | .fin n a, .fin m b =>
    if b = 0 then (if a = 0 then .nan else .inf (n != m))
    else finish (n != m) (roundMag (a * one) b)

/-- Where a value lies on the line, in units; a NaN lies nowhere, and an infinity beyond every finite value.
The two zeros lie at the same place. -/
def position : Val → Option Int
  | .nan => none
  | .inf neg => some (signed neg limit)
  | .fin neg mag => some (signed neg mag)

/-- `a < b`; false with a NaN. -/
def ltVal (a b : Val) : Bool :=
  match position a, position b with
  | some x, some y => decide (x < y)
  | none, _ => false
  | some _, none => false

/-- `trunc` of a finite value: the fraction dropped, toward zero; `none` where there is no value. -/
def truncVal : Val → Option Int
  | .nan => none
  | .inf _ => none
  | .fin neg mag => some (signed neg (mag / one))

/-! ### The operations on patterns -/

/-- `isNaN(x)`. -/
def isNaN (a : F32Bits) : Bool := ofBits a == .nan

/-- `a (+) b`. -/
def add (a b : F32Bits) : F32Bits := toBits (addVal (ofBits a) (ofBits b))
/-- `a (-) b`. -/
def sub (a b : F32Bits) : F32Bits := toBits (subVal (ofBits a) (ofBits b))
/-- `a (*) b`. -/
def mul (a b : F32Bits) : F32Bits := toBits (mulVal (ofBits a) (ofBits b))
/-- `a (/) b`. -/
def div (a b : F32Bits) : F32Bits := toBits (divVal (ofBits a) (ofBits b))
/-- `a < b`. -/
def lt (a b : F32Bits) : Bool := ltVal (ofBits a) (ofBits b)
/-- `trunc(a)`. -/
def trunc (a : F32Bits) : Option Int := truncVal (ofBits a)

/-- The pattern of the binary32 nearest to `(-1)^neg * n / d`, a tie to even (R50); exact for a whole number
below 2^24. -/
def ofRatio (neg : Bool) (n d : Nat) : F32Bits := toBits (finish neg (roundMag (n * one) d))

/-- The pattern of a natural number. -/
def ofNat (n : Nat) : F32Bits := ofRatio false n 1

end Sys2Proof.Machine.F32
end

