-- ==== Sys2Proof/Machine/Parameters.lean ====
section
/-! DEFINITION. The values of the parameters and hardwired constants (spec/00_scope.md R4, spec/10_state.md
R14), and the constants the assembler names (spec/30_encoding.md R51). -/

namespace Sys2Proof.Machine

/-- R4 and R14, value by value. -/
def constants : Constants where
  nch := 16
  maskW := 16
  chW := 8
  angleFmt := .binary32
  pulseW := 16
  dutyW := 18
  delayW := 32
  cwW := 128
  rwW := 32
  sliceW := Config.sliceWidth
  minPulseUs := 500
  maxPulseUs := 2500
  angleMin := 0
  angleMax := 180
  centerAngle := 90
  k := 3289
  kdiv := 1000
  clkdiv := 0x42180000#32
  advLo := 400
  advHi := 2600
  sweepStep := 1
  frequencyHz := 50

/-- `CHn = 2^n` (R51). -/
def chBit (n : Nat) : Nat := 2 ^ n

/-- `ALL = 0xFFFF`: every channel (R14, R51). -/
def allChannels : Nat := 0xFFFF

end Sys2Proof.Machine
end

