-- ==== Sys2Proof/Machine/Operands.lean ====
section
/-! DEFINITION. The conversion datapath (spec/41_conversion.md): angle to pulse width, pulse width to duty
value; and the channels of a mask operand (spec/30_encoding.md R41). -/

namespace Sys2Proof.Machine

/-- The constant 180.0: the upper clamp bound and the divisor (R66, R67). -/
def angleMaxBits : F32Bits := F32.ofNat constants.angleMax

/-- The constant 0.0: the lower clamp bound (R66). -/
def angleMinBits : F32Bits := F32.ofNat constants.angleMin

/-- The constant 500.0 (R67). -/
def minPulseBits : F32Bits := F32.ofNat constants.minPulseUs

/-- The constant 2000.0 = MAX_PULSE_US - MIN_PULSE_US, "computed once as a constant" (R67). -/
def pulseSpanBits : F32Bits := F32.ofNat (constants.maxPulseUs - constants.minPulseUs)

/-- The angle 90.0 of the centre command (R52, R55). -/
def centerAngleBits : F32Bits := F32.ofNat constants.centerAngle

/-- The sweep increment 1.0 (R86). -/
def sweepStepBits : F32Bits := F32.ofNat constants.sweepStep

/-- `Clamp` (R66): a NaN passes, since both comparisons are false. -/
def clamp (a : F32Bits) : F32Bits :=
  if F32.lt a angleMinBits then angleMinBits
  else if F32.lt angleMaxBits a then angleMaxBits
  else a

/-- The value `t3` before truncation: the division, then the multiplication, then the addition, each rounded
on its own (R67). -/
def interpolate (a : F32Bits) : F32Bits :=
  F32.add minPulseBits (F32.mul (F32.div (clamp a) angleMaxBits) pulseSpanBits)

/-- `AngleToPulse` in binary32 (R67, R68); `none` for a NaN, which has no pulse width (R69). -/
def angleToPulse32 (a : F32Bits) : Option PulseWidth :=
  (F32.trunc (interpolate a)).map (BitVec.ofInt 16)

/-- The configuration of this hardware: R4's values, and the angle arithmetic instantiated with binary32
(R68). -/
def config : Config where
  toConstants := constants
  angleToPulse := angleToPulse32

/-- `PulseToDuty` (R72): the product exact, then a truncating division. -/
def pulseToDuty (p : PulseWidth) : DutyValue :=
  BitVec.ofNat 18 (p.toNat * config.k / config.kdiv)

/-- `AngleToDuty` (R76), where the angle has a pulse width. -/
def angleToDuty (a : F32Bits) : Option DutyValue :=
  (config.angleToPulse a).map pulseToDuty

/-- The bit of channel `c` in a mask; no bit of a mask stands for a channel of 16 or more (R11, R58). -/
def maskBit (m : ChannelMask) (c : Channel) : Bool := m.getLsbD c.toNat

/-- The channels of a mask, ascending (R41, R55). -/
def channelsOf (m : ChannelMask) : List Channel :=
  ((List.range config.nch).map (BitVec.ofNat 8)).filter (maskBit m)

end Sys2Proof.Machine
end

