-- ==== Sys2Proof/Machine/State.lean ====
section
/-! DEFINITION. The state of the block and what crosses its ports, as plain data (spec/10_state.md R10 to
R21, spec/30_encoding.md R46 to R48), with the reasons a step can stop. -/

namespace Sys2Proof.Machine

/-- `PHASE`: whether the block can accept a command word (R16). -/
inductive Phase where
  | idle
  | busy
deriving DecidableEq, Repr

/-- The conditions a command can report, by their names in R100. -/
inductive Status where
  | ok
  | invalidChannel
  | notInitialized
  | illegalCommand
deriving DecidableEq, Repr

/-- The fields of a response word: `STATUS`, `ADV`, `RESULT` (R46). -/
structure Response where
  status : Status
  adv : Bool
  result : Bool
deriving DecidableEq, Repr

/-- A backend event, with the arguments R48 gives it. A `Bind` carries the handle it returned. -/
inductive Event where
  /-- `Bind(c) -> h`. -/
  | bind (c : Channel) (h : SliceHandle)
  /-- `Configure(h, d)`; `d` is the binary32 pattern of the divider (R48). -/
  | configure (h : SliceHandle) (d : F32Bits)
  /-- `Enable(h)`. -/
  | enable (h : SliceHandle)
  /-- `WriteDuty(c, v)`. -/
  | writeDuty (c : Channel) (v : DutyValue)
  /-- `Sleep(ms)`. -/
  | sleep (ms : DelayMs)
deriving DecidableEq, Repr

/-- The direction of a sweep, `sign(end - start)`, fixed at entry (R86). -/
inductive Direction where
  | up
  | down
deriving DecidableEq, Repr

/-- What is left to do inside the command that executes: the position R16 speaks of, one micro-operation a
step. DESIGN CHOICE, log 3. -/
inductive MicroOp where
  /-- `INIT` phase 1: `Bind(c)` (R55). -/
  | bind (c : Channel)
  /-- `INIT` phase 1: `Configure(h, CLKDIV)` (R55). -/
  | configure (c : Channel)
  /-- `INIT` phase 1: `Enable(h)` (R55). -/
  | enable (c : Channel)
  /-- `INIT` phase 2: `INIT_MASK <- MASK` (R55). -/
  | setMask (mask : ChannelMask)
  /-- `INIT` phase 3: the centre command (R55). -/
  | centre (c : Channel)
  /-- `SWEEP`: `SetAngleOp(SW_CH, SW_A)` (R86). -/
  | sweepWrite
  /-- `SWEEP`: `Sleep(SW_DLY)`, then `SW_A` advances, then the loop is tested (R86, R87). -/
  | sweepSleep (d : Direction)
  /-- `SWEEP`: the final call `SetAngleOp(SW_CH, SW_END)` (R88). -/
  | sweepFinal
  /-- The response word, after which the block is idle (R46, R47). -/
  | respond (r : Response)
deriving DecidableEq, Repr

/-- What the host does next at the block's inputs (R47, R120, R130). DESIGN CHOICE, log 1. -/
inductive HostInput where
  /-- The host presents a command word and holds it until it is accepted. -/
  | present (w : CommandWord)
  /-- The host presents nothing for one step. -/
  | wait
  /-- The reset input is asserted for one step. -/
  | reset
deriving DecidableEq, Repr

/-- The state: the block's own (R10), what crosses its ports, and the counter of free values. -/
structure State where
  /-- `INIT_MASK` (R11). -/
  initMask : ChannelMask
  /-- `PHASE` (R16). -/
  phase : Phase
  /-- `SW_CH` (R15). -/
  swCh : Channel
  /-- `SW_A` (R15). -/
  swA : F32Bits
  /-- `SW_END` (R15). -/
  swEnd : F32Bits
  /-- `SW_DLY` (R15). -/
  swDly : DelayMs
  /-- The position inside the command that executes (R16). -/
  pending : List MicroOp
  /-- The backend trace, oldest event first (R19). -/
  trace : List Event
  /-- The response words produced, oldest first (R46). -/
  responses : List ResponseWord
  /-- What the host does, next action first (R47, R130). -/
  host : List HostInput
  /-- The model's own: the index of the next free duty value. Log 11. -/
  draws : Nat
deriving DecidableEq, Repr

/-- Why the machine stops. -/
inductive Fault where
  /-- Raised by `advance` when `PHASE` is `BUSY` and no micro-operation is pending. Safe: no run reaches such
  a state, and the hardware has none. DESIGN CHOICE, log 20. -/
  | sequencerLost
deriving DecidableEq, Repr

/-- Why a command has no meaning. -/
inductive Refusal where
  /-- Raised by `exec` for a command with no meaning yet. Safe: nothing is said about it. -/
  | notModelled (mnemonic : String)
  /-- Raised by `SWEEP` on a channel that passes validation, with a NaN `START` or `END`: "a `SWEEP` with any
  NaN operand on a channel that passes validation is `refuse`" (R90). Safe: nothing is said about it. Log 10. -/
  | nanSweepOperand
deriving DecidableEq, Repr

/-- The machine right after reset (R21, R130), nothing having crossed its ports. The working registers have no
value there by R21: zero is DESIGN CHOICE, log 5. -/
def State.reset : State where
  initMask := 0x0000#16
  phase := .idle
  swCh := 0
  swA := 0
  swEnd := 0
  swDly := 0
  pending := []
  trace := []
  responses := []
  host := []
  draws := 0

end Sys2Proof.Machine
end

