-- ==== Sys2Proof/Machine/Flags.lean ====
section
/-! DEFINITION. The fields of the response word (spec/30_encoding.md R46, spec/60_exceptions.md R100) and the
advisory (spec/42_servo_commands.md R83). The block has no flag register (spec/10_state.md R17). -/

namespace Sys2Proof.Machine

/-- The code of a condition (R46, R100). -/
def Status.code : Status → BitVec 2
  | .ok => 0
  | .invalidChannel => 1
  | .notInitialized => 2
  | .illegalCommand => 3

/-- The response word: `STATUS` in bits 1 to 0, `ADV` bit 2, `RESULT` bit 3, the rest zero (R46). -/
def Response.word (r : Response) : ResponseWord :=
  (0 : BitVec 28) ++ BitVec.ofBool r.result ++ BitVec.ofBool r.adv ++ r.status.code

/-- Whether a pulse width raises the `UnusualPulseWidth` advisory: outside [400, 2600] (R83). -/
def unusualPulse (p : PulseWidth) : Bool :=
  decide (p.toNat < config.advLo) || decide (config.advHi < p.toNat)

end Sys2Proof.Machine
end

