-- ==== Sys2Proof/Machine/Ops.lean ====
section
/-! DEFINITION. The operations the commands share: backend events, the response, raising a condition,
validation, `SetPulseOp`, `SetAngleOp`, and reset. -/

namespace Sys2Proof.Machine

/-- Issue one backend event; it is complete when the next is issued (R31, R32). -/
def emit (e : Event) (s : State) : State := { s with trace := s.trace ++ [e] }

/-- `respond(status, adv, result)`: the response word is produced and the block is idle (R46, R47). -/
def respond (r : Response) (s : State) : State :=
  { s with responses := s.responses ++ [r.word], phase := .idle, pending := [] }

/-- TAKING A CONDITION, `raise <Condition>`: the command stops, nothing is saved, nothing else is written, and
the response carries the code (R104). There is nothing to return from: the next command is executed as if
this one had not been issued (R109). -/
def raise (c : Status) (s : State) : State := respond ⟨c, false, false⟩ s

/-- The command goes on executing, with these micro-operations to do (R16). -/
def begin (ops : List MicroOp) (s : State) : State := { s with phase := .busy, pending := ops }

/-- `Validate(CH)`: the range check first, then the mask bit (R80); `ok` when both pass. -/
def validate (ch : Channel) (s : State) : Status :=
  if config.nch ≤ ch.toNat then .invalidChannel
  else if maskBit s.initMask ch then .ok
  else .notInitialized

/-- What `SetPulseOp` and `SetAngleOp` end with: the state, and `(status, adv)`. -/
structure OpResult where
  state : State
  status : Status
  adv : Bool
deriving DecidableEq, Repr

/-- `SetPulseOp(CH, PULSE)` (R82): the pulse width is not clamped. -/
def setPulseOp (ch : Channel) (p : PulseWidth) (s : State) : OpResult :=
  match validate ch s with
  | .ok => ⟨emit (.writeDuty ch (pulseToDuty p)) s, .ok, unusualPulse p⟩
  | .invalidChannel => ⟨s, .invalidChannel, false⟩
  | .notInitialized => ⟨s, .notInitialized, false⟩
  | .illegalCommand => ⟨s, .illegalCommand, false⟩

/-- The `n`-th free duty value, in its 18 bits (R65, R69). -/
def freeDutyValue (n : Nat) : DutyValue := BitVec.ofNat 18 (Config.freeDuty n).val

/-- The write of an angle that has no pulse width: "a draw of an arbitrary duty value" (R69, U1). Log 9. -/
def drawDuty (ch : Channel) (s : State) : State :=
  { emit (.writeDuty ch (freeDutyValue s.draws)) s with draws := s.draws + 1 }

/-- `SetAngleOp(CH, ANGLE)` (R81): the angle is not examined before validation has passed (R80). -/
def setAngleOp (ch : Channel) (a : F32Bits) (s : State) : OpResult :=
  match validate ch s with
  | .ok =>
    match config.angleToPulse a with
    | some p => setPulseOp ch p s
    | none => ⟨drawDuty ch s, .ok, false⟩
  | .invalidChannel => ⟨s, .invalidChannel, false⟩
  | .notInitialized => ⟨s, .notInitialized, false⟩
  | .illegalCommand => ⟨s, .illegalCommand, false⟩

/-- How a command ends on the result of its operation: a failure is raised, a success responds in a step of
its own, since its event has been issued and a reset may still fall before the response (R32, R104, R132). -/
def conclude (r : OpResult) : State :=
  match r.status with
  | .ok => begin [.respond ⟨.ok, r.adv, false⟩] r.state
  | .invalidChannel => raise .invalidChannel r.state
  | .notInitialized => raise .notInitialized r.state
  | .illegalCommand => raise .illegalCommand r.state

/-- A command word is accepted: the host is released from it, and the block is busy (R47). -/
def accept (rest : List HostInput) (s : State) : State := { s with host := rest, phase := .busy }

/-- The reset input is asserted: the block's own state is that of R130, the command that executes is
abandoned (R132), and what has crossed the ports stands (R131). -/
def applyReset (s : State) : State :=
  { State.reset with
    trace := s.trace, responses := s.responses, host := s.host, draws := s.draws }

end Sys2Proof.Machine
end

