-- ==== Sys2Proof/Machine/Registry.lean ====
section
/-! DEFINITION. The Channel Registry commands `INIT` and `ISINIT` (spec/40_channel_registry.md). -/

namespace Sys2Proof.Machine

/-- `INIT` phase 1 for one channel: `Bind`, `Configure`, `Enable` (R55). -/
def configureOps (c : Channel) : List MicroOp := [.bind c, .configure c, .enable c]

/-- The whole of `INIT(MASK)`: every channel configured, then the register overwritten, then every channel
centred, then the response, which is always OK (R55). -/
def initOps (mask : ChannelMask) : List MicroOp :=
  (channelsOf mask).flatMap configureOps ++ [.setMask mask] ++
    (channelsOf mask).map .centre ++ [.respond ⟨.ok, false, false⟩]

/-- `INIT` (R55): it needs no initialised channel and is never refused (R57). -/
def execInit (mask : ChannelMask) (s : State) : Host.Outcome State Fault Refusal :=
  .next (begin (initOps mask) s)

/-- The answer of `ISINIT`: the channel's bit, and `false` for a channel of 16 or more (R58). -/
def isInitialized (ch : Channel) (s : State) : Bool :=
  if ch.toNat < config.nch then maskBit s.initMask ch else false

/-- `ISINIT` (R58): a pure query, no condition and no event. -/
def execIsinit (ch : Channel) (s : State) : Host.Outcome State Fault Refusal :=
  .next (respond ⟨.ok, false, isInitialized ch s⟩ s)

end Sys2Proof.Machine
end

