-- ==== Sys2Proof/Machine/Servo.lean ====
section
/-! DEFINITION. The servo commands `SETANGLE`, `SETPULSE` and `SWEEP` (spec/42_servo_commands.md). -/

namespace Sys2Proof.Machine

/-- `SETANGLE` (R81). -/
def execSetangle (ch : Channel) (angle : F32Bits) (s : State) : Host.Outcome State Fault Refusal :=
  .next (conclude (setAngleOp ch angle s))

/-- `SETPULSE` (R82). -/
def execSetpulse (ch : Channel) (pulse : PulseWidth) (s : State) : Host.Outcome State Fault Refusal :=
  .next (conclude (setPulseOp ch pulse s))

/-- `SW_A` after one step in a direction: one binary32 addition or subtraction of 1.0 (R86). -/
def advanceAngle (d : Direction) (a : F32Bits) : F32Bits :=
  match d with
  | .up => F32.add a sweepStepBits
  | .down => F32.sub a sweepStepBits

/-- Whether the loop goes on: the angle lies strictly before the end (R87). -/
def beforeEnd (d : Direction) (a stop : F32Bits) : Bool :=
  match d with
  | .up => F32.lt a stop
  | .down => F32.lt stop a

/-- The end of a sweep: the corrective final call, then the response (R84, R88). -/
def sweepEnd : List MicroOp := [.sweepFinal, .respond ⟨.ok, false, false⟩]

/-- The head of the loop: one more step while the angle lies before the end, else the final call (R86 to
R88). -/
def sweepLoop (d : Direction) (a stop : F32Bits) : List MicroOp :=
  if beforeEnd d a stop then [.sweepWrite, .sweepSleep d] else sweepEnd

/-- The direction of a sweep, fixed at entry; none when the angles are equal (R84, R86). -/
def sweepDirection (start stop : F32Bits) : Option Direction :=
  if F32.lt start stop then some .up
  else if F32.lt stop start then some .down
  else none

/-- Sweep entry: the four operands are latched (R85). -/
def latchSweep (ch : Channel) (start stop : F32Bits) (delay : DelayMs) (s : State) : State :=
  { s with swCh := ch, swA := start, swEnd := stop, swDly := delay }

/-- The first micro-operations of a sweep (R84). -/
def sweepStart (start stop : F32Bits) : List MicroOp :=
  match sweepDirection start stop with
  | some d => sweepLoop d start stop
  | none => sweepEnd

/-- The second half of a sweep step: the delay is issued, also when it is zero, then `SW_A` advances, then the
loop is tested (R86, R87). -/
def sleepAndAdvance (d : Direction) (s : State) : State :=
  { s with
    trace := s.trace ++ [.sleep s.swDly]
    swA := advanceAngle d s.swA
    pending := sweepLoop d (advanceAngle d s.swA) s.swEnd }

/-- `SWEEP` (R84, R85): validated once, before the other operands are examined. A NaN operand on a channel
that passes is refused (R90 item 1, log 10). -/
def execSweep (ch : Channel) (start stop : F32Bits) (delay : DelayMs) (s : State) :
    Host.Outcome State Fault Refusal :=
  match validate ch s with
  | .ok =>
    if F32.isNaN start || F32.isNaN stop then .refused .nanSweepOperand
    else .next (begin (sweepStart start stop) (latchSweep ch start stop delay s))
  | .invalidChannel => .next (raise .invalidChannel s)
  | .notInitialized => .next (raise .notInitialized s)
  | .illegalCommand => .next (raise .illegalCommand s)

end Sys2Proof.Machine
end

