-- ==== Sys2Proof/Machine/Dispatch.lean ====
section
/-! DEFINITION. The meaning of each command, one arm per constructor. -/

namespace Sys2Proof.Machine

def exec (i : Instr) (s : State) : Host.Outcome State Fault Refusal :=
  match i with
  | .init mask => Sys2Proof.Machine.execInit mask s
  | .isinit ch => Sys2Proof.Machine.execIsinit ch s
  | .setangle ch angle => Sys2Proof.Machine.execSetangle ch angle s
  | .setpulse ch pulse => Sys2Proof.Machine.execSetpulse ch pulse s
  | .sweep ch start stop delay => Sys2Proof.Machine.execSweep ch start stop delay s

end Sys2Proof.Machine
end

