-- ==== Sys2Proof/Machine/Sequencer.lean ====
section
/-! DEFINITION. The sequencer: what a busy block does in one step (spec/10_state.md R16, spec/20_memory.md R32,
spec/40_channel_registry.md R55, spec/42_servo_commands.md R86 to R88). -/

namespace Sys2Proof.Machine

/-- One micro-operation, in a state whose `pending` holds the ones after it. -/
def runOp (op : MicroOp) (s : State) : State :=
  match op with
  | .bind c => emit (.bind c (Config.sliceOf c)) s
  | .configure c => emit (.configure (Config.sliceOf c) config.clkdiv) s
  | .enable c => emit (.enable (Config.sliceOf c)) s
  | .setMask mask => { s with initMask := mask }
  | .centre c => (setAngleOp c centerAngleBits s).state
  | .sweepWrite => (setAngleOp s.swCh s.swA s).state
  | .sweepSleep d => sleepAndAdvance d s
  | .sweepFinal => (setAngleOp s.swCh s.swEnd s).state
  | .respond r => respond r s

/-- One step of the command that executes: its next micro-operation. -/
def advance (s : State) : Host.Outcome State Fault Refusal :=
  match s.pending with
  | [] => .fault .sequencerLost
  | op :: rest => .next (runOp op { s with pending := rest })

/-- One step in which no command word is accepted: a busy block goes on, an idle one waits. -/
def tick (s : State) : Host.Outcome State Fault Refusal :=
  match s.phase with
  | .idle => .next s
  | .busy => advance s

end Sys2Proof.Machine
end

