-- ==== Sys2Proof/Machine/Accept.lean ====
section
/-! DEFINITION. The command port and the reset input (spec/30_encoding.md R44, R47,
spec/70_reset_and_hazards.md R130 to R132): what `step` calls. -/

namespace Sys2Proof.Machine

/-- A command word presented to an idle block is accepted and executed; one that matches no row raises
`IllegalCommand`, before anything else is looked at (R44, R47, R103, R106). -/
def acceptWord (w : CommandWord) (rest : List HostInput) (s : State) :
    Host.Outcome State Fault Refusal :=
  match decode w with
  | .ok i => exec i (accept rest s)
  | .error _ => .next (raise .illegalCommand (accept rest s))

/-- One step of the block under the host's next action. The reset input comes before everything; a word
presented while the block is busy is held by the host, neither accepted nor lost (R47, U11). -/
def stepBlock (s : State) : Host.Outcome State Fault Refusal :=
  match s.host with
  | [] => tick s
  | .wait :: rest => tick { s with host := rest }
  | .reset :: rest => .next (applyReset { s with host := rest })
  | .present w :: rest =>
    match s.phase with
    | .busy => advance s
    | .idle => acceptWord w rest s

/-- `s` with the block idle and the host presenting the word `w`, a number of `nbits` bits, before whatever
else it does. -/
def presentFirst (s : State) (nbits w : Nat) : State :=
  { s with
    phase := .idle
    pending := []
    host := .present (BitVec.ofNat 128 (w % 2 ^ nbits)) :: s.host }

end Sys2Proof.Machine
end

