-- ==== Sys2Proof/Machine/Step.lean ====
section
/-! DEFINITION. One step of the machine. -/

namespace Sys2Proof.Machine

/-- One step: at most one command word accepted, at most one backend event, at most one response. -/
def step (s : State) : Host.Outcome State Fault Refusal := stepBlock s

/-- The state in which the next step accepts and runs the word `w` (log 1). -/
def State.withFetchWord (s : State) (nbits w : Nat) : State := presentFirst s nbits w

end Sys2Proof.Machine
end

