-- ==== Sys2Proof/Machine/Assembler.lean ====
section
/-! DEFINITION. The assembler: calls to command words, and the text of a call (spec/30_encoding.md R50 to
R52). -/

namespace Sys2Proof.Machine

/-- A decimal number as the nearest binary32, a tie to even (R50). -/
def decimalBits (d : Decimal) : F32Bits := F32.ofRatio d.neg d.num d.den

/-- The command of a call; `none` where an operand is out of R50's range. -/
def commandOfCall (c : Call) : Option Instr :=
  if c.wellFormed constants then
    match c with
    | .init mask => some (.init (BitVec.ofNat 16 mask))
    | .isInitialized ch => some (.isinit (BitVec.ofNat 8 ch))
    | .setAngle ch a => some (.setangle (BitVec.ofNat 8 ch) (decimalBits a))
    | .setPulseUs ch p => some (.setpulse (BitVec.ofNat 8 ch) (BitVec.ofNat 16 p))
    | .sweep ch a b d =>
      some (.sweep (BitVec.ofNat 8 ch) (decimalBits a) (decimalBits b) (BitVec.ofNat 32 d))
  else none

/-- The command word of a call; unused fields are assembled as zero (R50). -/
def assemble (c : Call) : Option CommandWord := (commandOfCall c).map encode

/-- The pseudo-command of R52: the center command `set_angle(c, 90)`. -/
def centerCall (ch : Nat) : Call := .setAngle ch ⟨false, constants.centerAngle, 1⟩

/-! ### The text of a call. What R50 does not fix (blanks, a leading minus sign, hexadecimal) is a DESIGN
CHOICE, log 22. So are a plain integer as a piece of an OR, and leading zeros in the number of a `CHn`. -/

/-- The pieces of a text between the occurrences of a character. -/
def splitAtChar (c : Char) : List Char → List (List Char)
  | [] => [[]]
  | x :: xs =>
    match splitAtChar c xs with
    | [] => [[x]]
    | p :: ps => if x = c then [] :: p :: ps else (x :: p) :: ps

/-- The text without blanks. -/
def withoutBlanks (cs : List Char) : List Char := cs.filter (· ≠ ' ')

/-- The value of a digit character. -/
def digitValue (c : Char) : Option Nat :=
  if '0' ≤ c ∧ c ≤ '9' then some (c.toNat - '0'.toNat)
  else if 'a' ≤ c ∧ c ≤ 'f' then some (c.toNat - 'a'.toNat + 10)
  else if 'A' ≤ c ∧ c ≤ 'F' then some (c.toNat - 'A'.toNat + 10)
  else none

/-- Digits in a base, continuing a number. -/
def digitsFrom (base acc : Nat) : List Char → Option Nat
  | [] => some acc
  | c :: cs =>
    match digitValue c with
    | some d => if d < base then digitsFrom base (base * acc + d) cs else none
    | none => none

/-- A non-empty row of digits. -/
def digits (base : Nat) (cs : List Char) : Option Nat :=
  if cs = [] then none else digitsFrom base 0 cs

/-- An integer: decimal, or hexadecimal after `0x` (R5). -/
def integerText : List Char → Option Nat
  | '0' :: 'x' :: cs => digits 16 cs
  | cs => digits 10 cs

/-- The named constants of R51. Leading zeros in the number of a `CHn` are read too (`CH07` is `CH7`): DESIGN
CHOICE, log 22. -/
def namedConstant (cs : List Char) : Option Nat :=
  if cs = ['A', 'L', 'L'] then some allChannels
  else if cs = ['M', 'I', 'N', '_', 'P', 'U', 'L', 'S', 'E', '_', 'U', 'S'] then
    some constants.minPulseUs
  else if cs = ['M', 'A', 'X', '_', 'P', 'U', 'L', 'S', 'E', '_', 'U', 'S'] then
    some constants.maxPulseUs
  else if cs = ['F', 'R', 'E', 'Q', 'U', 'E', 'N', 'C', 'Y', '_', 'H', 'Z'] then
    some constants.frequencyHz
  else
    match cs with
    | 'C' :: 'H' :: n =>
      match digits 10 n with
      | some k => if k < constants.nch then some (chBit k) else none
      | none => none
    | _ => none

/-- An integer operand: a named constant or an integer. -/
def integerOperand (cs : List Char) : Option Nat :=
  match namedConstant cs with
  | some n => some n
  | none => integerText cs

/-- A mask operand: an integer, or an OR of named constants (R50). A plain integer is read as a piece of an OR
too (`1 | CH2`): DESIGN CHOICE, log 22. -/
def maskOperand (cs : List Char) : Option Nat :=
  (splitAtChar '|' cs).foldl
    (fun acc p => match acc, integerOperand p with
      | some a, some b => some (a ||| b)
      | some _, none => none
      | none, _ => none) (some 0)

/-- A decimal number without a sign: digits, or digits, a point and digits. -/
def unsignedDecimal (neg : Bool) (cs : List Char) : Option Decimal :=
  match splitAtChar '.' cs with
  | [i] => (digits 10 i).map fun n => ⟨neg, n, 1⟩
  | [i, f] =>
    match digits 10 (i ++ f), digits 10 i, digits 10 f with
    | some n, some _, some _ => some ⟨neg, n, 10 ^ f.length⟩
    | _, _, _ => none
  | _ => none

/-- An angle operand (R50). -/
def decimalOperand : List Char → Option Decimal
  | '-' :: cs => unsignedDecimal true cs
  | cs => unsignedDecimal false cs

/-- The operands of a call, by its name. -/
def callOf (name : List Char) (args : List (List Char)) : Option Call :=
  if name = ['i', 'n', 'i', 't'] then
    match args with
    | [m] => (maskOperand m).map .init
    | _ => none
  else if name = ['i', 's', '_', 'i', 'n', 'i', 't', 'i', 'a', 'l', 'i', 'z', 'e', 'd'] then
    match args with
    | [c] => (integerOperand c).map .isInitialized
    | _ => none
  else if name = ['s', 'e', 't', '_', 'a', 'n', 'g', 'l', 'e'] then
    match args with
    | [c, a] =>
      match integerOperand c, decimalOperand a with
      | some c, some a => some (.setAngle c a)
      | _, _ => none
    | _ => none
  else if name = ['s', 'e', 't', '_', 'p', 'u', 'l', 's', 'e', '_', 'u', 's'] then
    match args with
    | [c, p] =>
      match integerOperand c, integerOperand p with
      | some c, some p => some (.setPulseUs c p)
      | _, _ => none
    | _ => none
  else if name = ['s', 'w', 'e', 'e', 'p'] then
    match args with
    | [c, a, b, d] =>
      match integerOperand c, decimalOperand a, decimalOperand b, integerOperand d with
      | some c, some a, some b, some d => some (.sweep c a b d)
      | _, _, _, _ => none
    | _ => none
  else none

/-- The call a text writes: a name, and between brackets its operands, separated by commas (R50). -/
def parseCall (text : List Char) : Option Call :=
  match splitAtChar '(' (withoutBlanks text) with
  | [name, rest] =>
    match rest.reverse with
    | ')' :: body => callOf name (splitAtChar ',' body.reverse)
    | _ => none
  | _ => none

/-- The command word of a line of assembly text (R50). -/
def assembleText (text : String) : Option CommandWord :=
  match parseCall text.toList with
  | some c => assemble c
  | none => none

end Sys2Proof.Machine
end

