-- ==== Sys2Proof/Machine/Backend.lean ====
section
/-! DEFINITION. What the trace says the backend holds (spec/10_state.md R19, spec/20_memory.md R25(b)): stored
once, as the trace, and read off it here. `none` is "no event yet": the backend's state before its first event
is unspecified (U7). -/

namespace Sys2Proof.Machine

/-- `DUTY[c]`: the value of the last `WriteDuty(c, v)` event (R19). -/
def dutyOf (c : Channel) : List Event → Option DutyValue
  | [] => none
  | e :: es =>
    match dutyOf c es, e with
    | some v, _ => some v
    | none, .writeDuty c' v => if c' = c then some v else none
    | none, .bind _ _ => none
    | none, .configure _ _ => none
    | none, .enable _ => none
    | none, .sleep _ => none

/-- The slice the last `Bind(c)` associated with channel `c` (R113). -/
def boundSlice (c : Channel) : List Event → Option SliceHandle
  | [] => none
  | e :: es =>
    match boundSlice c es, e with
    | some h, _ => some h
    | none, .bind c' h => if c' = c then some h else none
    | none, .configure _ _ => none
    | none, .enable _ => none
    | none, .writeDuty _ _ => none
    | none, .sleep _ => none

/-- The divider the last `Configure(h, d)` gave slice `h` (R114). -/
def sliceDivider (h : SliceHandle) : List Event → Option F32Bits
  | [] => none
  | e :: es =>
    match sliceDivider h es, e with
    | some d, _ => some d
    | none, .configure h' d => if h' = h then some d else none
    | none, .bind _ _ => none
    | none, .enable _ => none
    | none, .writeDuty _ _ => none
    | none, .sleep _ => none

/-- The enable state of slice `h`: enabled once an `Enable(h)` has been issued, since there is no disable
(R115), and unknown before (R19, U7). -/
def sliceEnabled (h : SliceHandle) (tr : List Event) : Option Bool :=
  if Event.enable h ∈ tr then some true else none

/-- Channel `c` has been bound, and its slice configured with `CLKDIV` and enabled (R116, R118). -/
def armed (c : Channel) (tr : List Event) : Prop :=
  Event.bind c (Config.sliceOf c) ∈ tr ∧
  Event.configure (Config.sliceOf c) config.clkdiv ∈ tr ∧
  Event.enable (Config.sliceOf c) ∈ tr

end Sys2Proof.Machine
end

