-- ==== Sys2Proof/Safety.lean ====
section
/-! DEFINITION. What a safe run is, in the terms the statements use: running some steps, a host that does not
interfere, the answers a command may give, the order the backend is owed, and the invariant of every step. -/

namespace Sys2Proof.Machine

/-- From `s`, `n` steps lead to `t`. -/
def Runs (n : Nat) (s t : State) : Prop := Sys2Proof.core.run n s = .next t

/-- The host does not interfere with a busy block: it presents nothing more, or holds a word. A host that lets
steps pass first does not interfere either: `Obligations.WaitingPassesTheStep` carries what is said of a quiet
host over to it. -/
def Quiet (s : State) : Prop := s.host = [] ∨ ∃ w rest, s.host = .present w :: rest

/-- `STATUS != 0` implies `ADV = 0` and `RESULT = 0` (R46). -/
def Response.Legal (r : Response) : Prop := r.status ≠ .ok → r.adv = false ∧ r.result = false

/-- The response of a success with nothing else to say. -/
def okResponse : Response := ⟨.ok, false, false⟩

/-- The row of R46's second table for a command. -/
def MayAnswer (i : Instr) (r : Response) : Prop :=
  match i with
  | .init _ => r = okResponse
  | .isinit _ => r.status = .ok ∧ r.adv = false
  | .setangle _ _ => r.status ≠ .illegalCommand ∧ r.adv = false ∧ r.result = false
  | .setpulse _ _ => r.status ≠ .illegalCommand ∧ (r.adv = true → r.status = .ok) ∧ r.result = false
  | .sweep _ _ _ _ => r.status ≠ .illegalCommand ∧ r.adv = false ∧ r.result = false

/-- The duty value an event writes. -/
def writtenDuty : Event → Option Nat
  | .writeDuty _ v => some v.toNat
  | .bind _ _ => none
  | .configure _ _ => none
  | .enable _ => none
  | .sleep _ => none

/-- The duty values written by a list of events, in order. -/
def dutiesWritten (es : List Event) : List Nat := es.filterMap writtenDuty

/-- What the backend may assume of an event, given the events before it (R116, R118): `Bind` and `WriteDuty`
only for channels 0 to 15 (R48); a `Configure` only right after the `Bind` that returned its handle, an `Enable`
only right after that `Configure`, so that no other `INIT`, whose own first event would be a `Bind` (R55), lies
between; the divider always `CLKDIV`; `WriteDuty` only for a bound, configured and enabled channel, with a duty
value of at most 215544. -/
def EventOk (before : List Event) : Event → Prop
  | .bind c h => c.toNat < 16 ∧ h = Config.sliceOf c
  | .configure h d => d = 0x42180000#32 ∧ ∃ c, [Event.bind c h] <:+ before
  | .enable h => ∃ c, [Event.bind c h, Event.configure h 0x42180000#32] <:+ before
  | .writeDuty c v => c.toNat < 16 ∧ armed c before ∧ v.toNat ≤ 215544
  | .sleep _ => True

/-- Every event of a trace is one the backend may be sent where it stands (R118). -/
def TraceOk (tr : List Event) : Prop :=
  ∀ before e after, tr = before ++ e :: after → EventOk before e

/-- The event a micro-operation of `INIT` phase 1 issues (R55). -/
def phase1Event : MicroOp → Option Event
  | .bind c => some (.bind c (Config.sliceOf c))
  | .configure c => some (.configure (Config.sliceOf c) config.clkdiv)
  | .enable c => some (.enable (Config.sliceOf c))
  | .setMask _ => none
  | .centre _ => none
  | .sweepWrite => none
  | .sweepSleep _ => none
  | .sweepFinal => none
  | .respond _ => none

/-- The events that `INIT` phase 1 is still to issue (R55). -/
def pendingEvents (ops : List MicroOp) : List Event := ops.filterMap phase1Event

/-- The block is inside a sweep: the channel passes validation, no working register is a NaN, and the loop is
at one of its places (R86 to R89). -/
def Sweeping (s : State) : Prop :=
  validate s.swCh s = .ok ∧ F32.isNaN s.swA = false ∧ F32.isNaN s.swEnd = false ∧
  ((∃ d, beforeEnd d s.swA s.swEnd = true ∧ s.pending = [.sweepWrite, .sweepSleep d]) ∨
   (∃ d, beforeEnd d s.swA s.swEnd = true ∧ s.pending = [.sweepSleep d]) ∨
   s.pending = [.sweepFinal, .respond okResponse])

/-- The block is inside an `INIT`: what is left is the end of `initOps`, and once phase 2 is over the register
holds the mask (R55). -/
def Initialising (s : State) : Prop :=
  ∃ m, s.pending <:+ initOps m ∧ s.pending ≠ [] ∧
    (∀ c : Channel, c.toNat < 16 → maskBit m c = true →
      armed c (s.trace ++ pendingEvents s.pending)) ∧
    (MicroOp.setMask m ∉ s.pending → s.initMask = m)

/-- The invariant of every step. -/
structure Inv (s : State) : Prop where
  /-- `PHASE` is `IDLE` exactly when no command executes (R16, R47). -/
  phase_idle_iff : s.phase = .idle ↔ s.pending = []
  /-- A busy block owes only a response, or is inside a sweep, or inside an `INIT`. -/
  position : s.pending = [] ∨ (∃ r, r.Legal ∧ s.pending = [.respond r]) ∨ Sweeping s ∨ Initialising s
  /-- Every response word produced is one R46 allows. -/
  responses_legal : ∀ w ∈ s.responses, ∃ r : Response, r.Legal ∧ w = r.word
  /-- An initialised channel has been bound, configured and enabled (R116). -/
  initialised_armed : ∀ c : Channel, c.toNat < 16 → maskBit s.initMask c = true → armed c s.trace
  /-- The trace, and what phase 1 is still to issue, is one the backend may be sent (R118). -/
  trace_ok : TraceOk (s.trace ++ pendingEvents s.pending)

end Sys2Proof.Machine
end

