-- ==== Sys2Proof/Certificates/Slice0/Obligations.lean ====
section
/-! DEFINITION. The statements for the provers. Each docstring names the rules of spec/ it formalises. -/

open Sys2Proof Sys2Proof.Machine

/-! ### Encoding -/

/-- Every command, with every operand at every value, decodes from its own word (R40 to R42). -/
def Obligations.EveryCommandDecodesFromItsWord : Prop :=
  ∀ i : Instr, decode (encode i) = .ok i

/-- R43: a non-zero unused field matches no row and is illegal; two words never decode to one command; and
re-encoding a decoded command gives back its word. -/
def Obligations.DecoderIsInjective : Prop :=
  (∀ w : CommandWord,
    (w.extractLsb' 0 8 = 0x01#8 ∧ (w.extractLsb' 8 8 ≠ 0 ∨ w.extractLsb' 32 32 ≠ 0 ∨
        w.extractLsb' 64 32 ≠ 0 ∨ w.extractLsb' 96 32 ≠ 0) ∨
     w.extractLsb' 0 8 = 0x02#8 ∧ (w.extractLsb' 16 16 ≠ 0 ∨ w.extractLsb' 32 32 ≠ 0 ∨
        w.extractLsb' 64 32 ≠ 0 ∨ w.extractLsb' 96 32 ≠ 0) ∨
     w.extractLsb' 0 8 = 0x03#8 ∧ (w.extractLsb' 16 16 ≠ 0 ∨ w.extractLsb' 64 32 ≠ 0 ∨
        w.extractLsb' 96 32 ≠ 0) ∨
     w.extractLsb' 0 8 = 0x04#8 ∧ (w.extractLsb' 32 32 ≠ 0 ∨ w.extractLsb' 64 32 ≠ 0 ∨
        w.extractLsb' 96 32 ≠ 0) ∨
     w.extractLsb' 0 8 = 0x05#8 ∧ w.extractLsb' 16 16 ≠ 0) →
    (∀ r ∈ opcodeRows, r.selects w = false) ∧ ∃ e, decode w = .error e) ∧
  (∀ w w' i, decode w = .ok i → decode w' = .ok i → w = w') ∧
  (∀ w i, decode w = .ok i → encode i = w)

/-- R42: the opcode map as match and mask, with each operand in its field; at most one row matches a word. -/
def Obligations.OpcodeMapByMatchAndMask : Prop :=
  (∀ (w : CommandWord) (i : Instr), decode w = .ok i ↔
    (w &&& 0xFFFFFFFFFFFFFFFFFFFFFFFF0000FFFF = 0x00000000000000000000000000000001 ∧
      i = .init (w.extractLsb' 16 16)) ∨
    (w &&& 0xFFFFFFFFFFFFFFFFFFFFFFFFFFFF00FF = 0x00000000000000000000000000000002 ∧
      i = .isinit (w.extractLsb' 8 8)) ∨
    (w &&& 0xFFFFFFFFFFFFFFFF00000000FFFF00FF = 0x00000000000000000000000000000003 ∧
      i = .setangle (w.extractLsb' 8 8) (w.extractLsb' 32 32)) ∨
    (w &&& 0xFFFFFFFFFFFFFFFFFFFFFFFF000000FF = 0x00000000000000000000000000000004 ∧
      i = .setpulse (w.extractLsb' 8 8) (w.extractLsb' 16 16)) ∨
    (w &&& 0x000000000000000000000000FFFF00FF = 0x00000000000000000000000000000005 ∧
      i = .sweep (w.extractLsb' 8 8) (w.extractLsb' 32 32) (w.extractLsb' 64 32)
        (w.extractLsb' 96 32))) ∧
  opcodeRows.Pairwise fun a b => ∀ w, ¬ (a.selects w = true ∧ b.selects w = true)

/-- Words written out from R40 and R42 decode to the commands they stand for (spec/95_test_vectors.md). -/
def Obligations.SpecWordsDecode : Prop :=
  decode 0x00000000000000000000000000010001 = .ok (.init 0x0001) ∧
  decode 0x0000000000000000000000000000FF02 = .ok (.isinit 255) ∧
  decode 0x000000000000000042B4000000000103 = .ok (.setangle 1 0x42B40000) ∧
  decode 0x0000000000000000000000000A8C0104 = .ok (.setpulse 1 2700) ∧
  decode 0x0000000A40A000000000000000000305 = .ok (.sweep 3 0x00000000 0x40A00000 10)

/-- R27's convention: a word is its bytes in little-endian order, byte 0 carrying bits 7 to 0, and decoding from
bytes is decoding of the word. That the bytes after the sixteenth are left is the model's choice, log 21. -/
def Obligations.WordsAreLittleEndianBytes : Prop :=
  ∀ (w : CommandWord) (rest : List Byte),
    (bytesOfWord w).length = 16 ∧
    (bytesOfWord w).head? = some (w.extractLsb' 0 8) ∧
    natOfBytes (bytesOfWord w) = w.toNat ∧
    decodeBytes (bytesOfWord w ++ rest) = some (decode w, rest)

/-- R50 to R52: a call with its operands in range assembles to the word of the command with exactly the call's
operands, a decimal as `decimalBits` gives it, so 0.9 as `0x3F666666`; the center command is `SETANGLE` with
`W0 = 0x42B40000`; a call with an operand out of range has no word (a decimal of the model is a fraction, and out
of range when its denominator is 0). -/
def Obligations.AssemblerGivesTheCallsWord : Prop :=
  (∀ m, m < 65536 → assemble (.init m) = some (encode (.init (BitVec.ofNat 16 m)))) ∧
  (∀ c, c < 256 → assemble (.isInitialized c) = some (encode (.isinit (BitVec.ofNat 8 c)))) ∧
  (∀ c a, c < 256 → a.den ≠ 0 →
    assemble (.setAngle c a) = some (encode (.setangle (BitVec.ofNat 8 c) (decimalBits a)))) ∧
  (∀ c p, c < 256 → p < 65536 →
    assemble (.setPulseUs c p) = some (encode (.setpulse (BitVec.ofNat 8 c) (BitVec.ofNat 16 p)))) ∧
  (∀ c a b d, c < 256 → a.den ≠ 0 → b.den ≠ 0 → d < 4294967296 →
    assemble (.sweep c a b d) = some (encode (.sweep (BitVec.ofNat 8 c) (decimalBits a) (decimalBits b)
      (BitVec.ofNat 32 d)))) ∧
  decimalBits ⟨false, 9, 10⟩ = 0x3F666666 ∧
  (∀ c, c < 256 → assemble (centerCall c) =
    some (encode (.setangle (BitVec.ofNat 8 c) 0x42B40000))) ∧
  (∀ m, 65536 ≤ m → assemble (.init m) = none) ∧
  (∀ c, 256 ≤ c → assemble (.isInitialized c) = none ∧ (∀ a, assemble (.setAngle c a) = none) ∧
    (∀ p, assemble (.setPulseUs c p) = none) ∧ ∀ a b d, assemble (.sweep c a b d) = none) ∧
  (∀ c p, 65536 ≤ p → assemble (.setPulseUs c p) = none) ∧
  (∀ c a b d, 4294967296 ≤ d → assemble (.sweep c a b d) = none) ∧
  (∀ c a, a.den = 0 → assemble (.setAngle c a) = none) ∧
  (∀ c a b d, a.den = 0 ∨ b.den = 0 → assemble (.sweep c a b d) = none)

/-! ### The command port and the response port -/

/-- A step of an idle block to which the host presents a word that decodes is the decoded command's meaning, in
the state with the word accepted: the host released from it and `PHASE` `BUSY` (R47). -/
def Obligations.StepRunsTheDecodedCommand : Prop :=
  ∀ (s : State) (w : CommandWord) (rest : List HostInput) (i : Instr),
    s.phase = .idle → s.host = .present w :: rest → decode w = .ok i →
    step s = exec i { s with host := rest, phase := .busy }

/-- R44, R103: an illegal word changes no state, issues no event and ends with `STATUS = 3`, `ADV = 0`,
`RESULT = 0`; the reserved opcodes are illegal. -/
def Obligations.IllegalWordAnswersIllegalCommand : Prop :=
  (∀ (s : State) (w : CommandWord) (rest : List HostInput) (e : DecodeError),
    s.phase = .idle → s.pending = [] → s.host = .present w :: rest → decode w = .error e →
    step s = .next { s with host := rest, responses := s.responses ++ [0x00000003#32] }) ∧
  (∀ w : CommandWord, w.extractLsb' 0 8 = 0x00#8 ∨ 0x06 ≤ (w.extractLsb' 0 8).toNat →
    decode w = .error (.reservedOpcode (w.extractLsb' 0 8))) ∧
  (∀ w : CommandWord, (∀ r ∈ opcodeRows, r.selects w = false) → ∃ e, decode w = .error e)

/-- R47: a word presented while the block is busy is not accepted and has no effect: the block does what it
would do with nothing presented, and the host still holds the word. -/
def Obligations.BusyBlockDoesNotAccept : Prop :=
  ∀ (s : State) (w : CommandWord) (rest : List HostInput), Inv s →
    s.phase = .busy → s.host = .present w :: rest →
    ∃ t, step s = .next t ∧ t.host = .present w :: rest ∧
      step { s with host := [] } = .next { t with host := [] }

/-- An idle block to which nothing is presented waits: it does nothing (R16, R47; that such a step is a step at
all is the model's choice, log 18). -/
def Obligations.IdleBlockWaits : Prop :=
  ∀ s : State, s.phase = .idle →
    (s.host = [] → step s = .next s) ∧
    (∀ rest, s.host = .wait :: rest → step s = .next { s with host := rest })

/-- A host that lets a step pass changes nothing: the block does what it would do with nothing presented, and
only that step of the host is over. So what is said of a quiet host holds of one that waits first, too. That the
host's waiting is an action of a list is the model's choice, log 1. -/
def Obligations.WaitingPassesTheStep : Prop :=
  ∀ (s : State) (rest : List HostInput), s.host = .wait :: rest →
    (∀ t, step { s with host := [] } = .next t → step s = .next { t with host := rest }) ∧
    (∀ f, step { s with host := [] } = .fault f → step s = .fault f) ∧
    ∀ r, step { s with host := [] } ≠ .refused r

/-- R46, first table: the fields of the response word and the codes of the conditions. -/
def Obligations.ResponseWordLayout : Prop :=
  ∀ r : Response,
    r.word.extractLsb' 0 2 = (match r.status with
      | .ok => 0#2 | .invalidChannel => 1#2 | .notInitialized => 2#2 | .illegalCommand => 3#2) ∧
    r.word.getLsbD 2 = r.adv ∧ r.word.getLsbD 3 = r.result ∧ r.word.extractLsb' 4 28 = 0#28

/-- R46, second table, for the two ways a command gives its response: at once, or owed by the sequencer; and a
step of the sequencer owes nothing else than before, or the `OK` of a sweep. -/
def Obligations.CommandsAnswerAsTheTableSays : Prop :=
  (∀ (i : Instr) (s t : State), exec i s = .next t →
    (∃ r, MayAnswer i r ∧ t.responses = s.responses ++ [r.word] ∧ t.phase = .idle ∧ t.pending = []) ∨
    (t.responses = s.responses ∧ t.phase = .busy ∧
      ∀ r, MicroOp.respond r ∈ t.pending → MayAnswer i r)) ∧
  (∀ (op : MicroOp) (s : State) (r : Response), MicroOp.respond r ∈ (runOp op s).pending →
    MicroOp.respond r ∈ s.pending ∨ r = ⟨.ok, false, false⟩)

/-! ### The Channel Registry -/

/-- R55: `INIT` runs to completion from any state whose host does not interfere: every channel of the mask bound,
configured with divider 38.0 and enabled, ascending; the register overwritten; every channel of the mask
centred with `WriteDuty(c, 4933)`, ascending; one response, `OK`. Its encoding: `OP = 0x01`, `MASK` in `H`, the
other fields zero. The number of steps, one for each event, one for phase 2 and one for the response, is the
model's choice (log 2), and the handle as a function of the channel is the model's deduction (log 8). A host that
lets steps pass first comes in by `WaitingPassesTheStep` (log 1). -/
def Obligations.InitRunsToCompletion : Prop :=
  ∀ (mask : ChannelMask) (s : State), Quiet s →
    let cs := ((List.range 16).filter fun c => mask.getLsbD c).map (BitVec.ofNat 8)
    decode (commandWord 0x01#8 0 mask 0 0 0) = .ok (.init mask) ∧
    ∃ t, exec (.init mask) s = .next t ∧
      Runs (4 * cs.length + 2) t
        { s with
          initMask := mask, phase := .idle, pending := []
          trace := s.trace ++
            cs.flatMap (fun c => [.bind c (Config.sliceOf c),
              .configure (Config.sliceOf c) 0x42180000#32, .enable (Config.sliceOf c)]) ++
            cs.map (fun c => .writeDuty c 4933#18)
          responses := s.responses ++ [0x00000000#32] }

/-- R56: after `INIT(MASK)` the register is `MASK` exactly, whatever it was; a channel absent from the new mask
is uninitialised; and no event is issued for such a channel, so its compare value is what it was. -/
def Obligations.InitReplacesTheMask : Prop :=
  ∀ (mask : ChannelMask) (s : State), Quiet s →
    ∃ t n u es, exec (.init mask) s = .next t ∧ Runs n t u ∧
      u.phase = .idle ∧ u.initMask = mask ∧ u.trace = s.trace ++ es ∧
      ∀ c : Channel, c.toNat < 16 → mask.getLsbD c.toNat = false →
        isInitialized c u = false ∧
        (∀ h, Event.bind c h ∉ es) ∧ (∀ v, Event.writeDuty c v ∉ es) ∧
        dutyOf c u.trace = dutyOf c s.trace

/-- R58: `ISINIT` answers the channel's bit, and 0 for a channel of 16 or more, with `STATUS = OK`, and changes
and issues nothing. Its encoding: `OP = 0x02`, the other fields but `CH` zero. -/
def Obligations.IsinitAnswersTheBit : Prop :=
  ∀ (ch : Channel) (s : State),
    decode (commandWord 0x02#8 ch 0 0 0 0) = .ok (.isinit ch) ∧
    (ch.toNat ≤ 15 ∧ s.initMask.getLsbD ch.toNat = true →
      exec (.isinit ch) s = .next { s with
        phase := .idle, pending := [], responses := s.responses ++ [0x00000008#32] }) ∧
    (ch.toNat ≤ 15 ∧ s.initMask.getLsbD ch.toNat = false →
      exec (.isinit ch) s = .next { s with
        phase := .idle, pending := [], responses := s.responses ++ [0x00000000#32] }) ∧
    (16 ≤ ch.toNat →
      exec (.isinit ch) s = .next { s with
        phase := .idle, pending := [], responses := s.responses ++ [0x00000000#32] })

/-- R59, the laws of the registry: after `INIT(MASK)`, `ISINIT(c)` answers `MASK[c]` for `c <= 15` and 0
otherwise; `INIT(m1); INIT(m2)` leaves the register `INIT(m2)` alone leaves; `ISINIT` never changes the answer
of a later `ISINIT`. -/
def Obligations.RegistryLaws : Prop :=
  (∀ (mask : ChannelMask) (s : State), Quiet s →
    ∃ t n u, exec (.init mask) s = .next t ∧ Runs n t u ∧ u.phase = .idle ∧
      ∀ c : Channel, ∃ v, exec (.isinit c) u = .next v ∧
        v.responses = u.responses ++
          [if c.toNat ≤ 15 ∧ mask.getLsbD c.toNat = true then 0x00000008#32 else 0x00000000#32]) ∧
  (∀ (m1 m2 : ChannelMask) (s : State), Quiet s →
    ∃ t n u t' n' u' a k b, exec (.init m1) s = .next t ∧ Runs n t u ∧ u.phase = .idle ∧
      exec (.init m2) u = .next t' ∧ Runs n' t' u' ∧ u'.phase = .idle ∧
      exec (.init m2) s = .next a ∧ Runs k a b ∧ b.phase = .idle ∧ u'.initMask = b.initMask) ∧
  (∀ (c d : Channel) (s t : State), exec (.isinit c) s = .next t →
    isInitialized d t = isInitialized d s)

/-! ### The conversion datapath -/

/-- R66: the clamp. A NaN passes, and so does `-0`. -/
def Obligations.ClampCases : Prop :=
  (∀ a : F32Bits, F32.lt a 0x00000000 = true → clamp a = 0x00000000) ∧
  (∀ a : F32Bits, F32.lt 0x43340000 a = true → clamp a = 0x43340000) ∧
  (∀ a : F32Bits, F32.lt a 0x00000000 = false → F32.lt 0x43340000 a = false → clamp a = a) ∧
  (∀ a : F32Bits, F32.isNaN a = true → clamp a = a) ∧
  clamp 0x80000000 = 0x80000000 ∧ clamp 0xFF800000 = 0x00000000 ∧ clamp 0x7F800000 = 0x43340000

/-- R67: for an angle that is no NaN, the quotient by 180.0, the product by 2000.0 and the sum with 500.0 are
taken in this order, and the truncation of the sum is the pulse width, a number from 500 to 2500. -/
def Obligations.AngleToPulseFormula : Prop :=
  ∀ a : F32Bits, F32.isNaN a = false →
    ∃ p : PulseWidth, config.angleToPulse a = some p ∧ 500 ≤ p.toNat ∧ p.toNat ≤ 2500 ∧
      F32.trunc (F32.add 0x43FA0000 (F32.mul (F32.div (clamp a) 0x43340000) 0x44FA0000)) =
        some (p.toNat : Int)

/-- R69: a NaN has no pulse width, and nothing else lacks one. -/
def Obligations.OnlyNaNHasNoPulse : Prop :=
  ∀ a : F32Bits, config.angleToPulse a = none ↔ F32.isNaN a = true

/-- R70, the laws of `AngleToPulse`: monotone on the angles that are no NaN, clamping idempotence, a value in
500 to 2500 for every angle that is no NaN, its values at and beyond the ends. -/
def Obligations.AngleToPulseLaws : Prop :=
  (∀ (a b : F32Bits) (p q : PulseWidth), F32.lt b a = false →
    config.angleToPulse a = some p → config.angleToPulse b = some q → p.toNat ≤ q.toNat) ∧
  (∀ a : F32Bits, config.angleToPulse (clamp a) = config.angleToPulse a) ∧
  (∀ a : F32Bits, F32.isNaN a = false →
    ∃ p : PulseWidth, config.angleToPulse a = some p ∧ 500 ≤ p.toNat ∧ p.toNat ≤ 2500) ∧
  (∀ a : F32Bits, F32.isNaN a = false → F32.lt 0x00000000 a = false →
    config.angleToPulse a = some 500) ∧
  (∀ a : F32Bits, F32.isNaN a = false → F32.lt a 0x43340000 = false →
    config.angleToPulse a = some 2500)

/-- R71: the four angles where binary32 differs from exact arithmetic. -/
def Obligations.RoundingShowsWhereTheSpecSays : Prop :=
  config.angleToPulse 0x3F666666 = some 510 ∧ config.angleToPulse 0x3DB851EB = some 501 ∧
  config.angleToPulse 0x4333FFFF = some 2500 ∧ config.angleToPulse 0x42053333 = some 870

/-- R72, R73: the duty value is the exact product by 3289 divided by 1000 and truncated, at most 215544; it is
monotone, and one microsecond more is 3 or 4 counts more. -/
def Obligations.PulseToDutyIsExact : Prop :=
  (∀ p : PulseWidth, (pulseToDuty p).toNat = p.toNat * 3289 / 1000 ∧ (pulseToDuty p).toNat ≤ 215544) ∧
  (∀ p q : PulseWidth, p.toNat ≤ q.toNat → (pulseToDuty p).toNat ≤ (pulseToDuty q).toNat) ∧
  (∀ p : PulseWidth, p.toNat < 65535 →
    (pulseToDuty (p + 1)).toNat = (pulseToDuty p).toNat + 3 ∨
    (pulseToDuty (p + 1)).toNat = (pulseToDuty p).toNat + 4)

/-- R74: an angle's duty value lies in 1644 to 8222; a pulse width's fits 16 bits exactly up to 19925. -/
def Obligations.DutyValueRanges : Prop :=
  (∀ (a : F32Bits) (v : DutyValue), angleToDuty a = some v → 1644 ≤ v.toNat ∧ v.toNat ≤ 8222) ∧
  (∀ p : PulseWidth, (pulseToDuty p).toNat ≤ 65535 ↔ p.toNat ≤ 19925)

/-- R76: the composition, truncating twice, and its key values. -/
def Obligations.AngleToDutyTruncatesTwice : Prop :=
  (∀ a : F32Bits, angleToDuty a = (config.angleToPulse a).map pulseToDuty) ∧
  angleToDuty 0x00000000 = some 1644 ∧ angleToDuty 0x42340000 = some 3289 ∧
  angleToDuty 0x42B40000 = some 4933 ∧ angleToDuty 0x43070000 = some 6578 ∧
  angleToDuty 0x43340000 = some 8222 ∧ angleToDuty 0x42700000 = some 3834

/-! ### Validation and conditions -/

/-- R80, R104: a servo command that fails validation is a no-op whatever its other operands are, a NaN included:
the one thing it adds is a response with the code, `InvalidChannel` for a channel of 16 or more,
`NotInitialized` for a channel whose mask bit is clear. -/
def Obligations.FailedValidationIsANoOp : Prop :=
  ∀ (ch : Channel) (s : State) (i : Instr),
    ((∃ a, i = .setangle ch a) ∨ (∃ p, i = .setpulse ch p) ∨ (∃ a b d, i = .sweep ch a b d)) →
    (16 ≤ ch.toNat → exec i s = .next { s with
      phase := .idle, pending := [], responses := s.responses ++ [0x00000001#32] }) ∧
    (ch.toNat < 16 → s.initMask.getLsbD ch.toNat = false → exec i s = .next { s with
      phase := .idle, pending := [], responses := s.responses ++ [0x00000002#32] })

/-- R101: `InvalidChannel` is raised when, and only when, the channel operand of `SETANGLE`, `SETPULSE` or
`SWEEP` is 16 or more; `INIT` and `ISINIT` do not raise it. -/
def Obligations.InvalidChannelExactlyWhen : Prop :=
  ∀ (i : Instr) (s : State),
    exec i s = .next (raise .invalidChannel s) ↔
      ∃ ch : Channel, 16 ≤ ch.toNat ∧
        ((∃ a, i = .setangle ch a) ∨ (∃ p, i = .setpulse ch p) ∨ (∃ a b d, i = .sweep ch a b d))

/-- R102: `NotInitialized` is raised when, and only when, the channel operand of `SETANGLE`, `SETPULSE` or
`SWEEP` is 0 to 15 and its bit in `INIT_MASK` is 0. -/
def Obligations.NotInitializedExactlyWhen : Prop :=
  ∀ (i : Instr) (s : State),
    exec i s = .next (raise .notInitialized s) ↔
      ∃ ch : Channel, ch.toNat ≤ 15 ∧ s.initMask.getLsbD ch.toNat = false ∧
        ((∃ a, i = .setangle ch a) ∨ (∃ p, i = .setpulse ch p) ∨ (∃ a b d, i = .sweep ch a b d))

/-- R109: after a failed command the next command is executed exactly as if the failed one had not been issued:
it answers the same outcome, but for the failed command's response before its own. -/
def Obligations.FailureLeavesTheNextCommandAlone : Prop :=
  ∀ (c : Status) (s : State) (j : Instr), s.phase = .idle → s.pending = [] →
    (∀ u, exec j s = .next u → ∃ own, u.responses = s.responses ++ own ∧
      exec j (raise c s) =
        .next { u with responses := s.responses ++ [(⟨c, false, false⟩ : Response).word] ++ own }) ∧
    (∀ r, exec j s = .refused r → exec j (raise c s) = .refused r)

/-- R83: the advisory is emitted exactly when the pulse width is below 400 or above 2600. -/
def Obligations.AdvisoryExactlyOutsideTheBand : Prop :=
  ∀ p : PulseWidth, unusualPulse p = true ↔ p.toNat < 400 ∨ 2600 < p.toNat

/-! ### The servo commands -/

/-- R82: `SETPULSE` on a channel that passes validation writes the duty value of its pulse width, clamping
nothing, and then answers `OK` with the advisory bit of R83; on one that does not it writes nothing and answers
the failure. Its encoding: `OP = 0x04`, `PULSE` in `H`, `W0`, `W1` and `W2` zero. That the write is in the first
step and the answer in the next is the model's choice (logs 2, 4). -/
def Obligations.SetpulseWritesAndAnswers : Prop :=
  ∀ (ch : Channel) (p : PulseWidth) (s : State),
    decode (commandWord 0x04#8 ch p 0 0 0) = .ok (.setpulse ch p) ∧
    (16 ≤ ch.toNat → exec (.setpulse ch p) s = .next { s with
      phase := .idle, pending := [], responses := s.responses ++ [0x00000001#32] }) ∧
    (ch.toNat < 16 → s.initMask.getLsbD ch.toNat = false → exec (.setpulse ch p) s = .next { s with
      phase := .idle, pending := [], responses := s.responses ++ [0x00000002#32] }) ∧
    (Quiet s → ch.toNat < 16 → s.initMask.getLsbD ch.toNat = true →
      ∃ t v, v.toNat = p.toNat * 3289 / 1000 ∧ exec (.setpulse ch p) s = .next t ∧
        t.trace = s.trace ++ [.writeDuty ch v] ∧
        Runs 1 t { s with
          phase := .idle, pending := [], trace := s.trace ++ [.writeDuty ch v]
          responses := s.responses ++
            [if p.toNat < 400 ∨ 2600 < p.toNat then 0x00000004#32 else 0x00000000#32] })

/-- R81: `SETANGLE` on a channel that passes validation writes the duty value of the pulse width of its angle,
and then answers `OK` with no advisory, for every angle that is no NaN. That the write is in the first step and
the answer in the next is the model's choice (logs 2, 4). -/
def Obligations.SetangleWritesAndAnswers : Prop :=
  ∀ (ch : Channel) (a : F32Bits) (s : State), Quiet s →
    ch.toNat < 16 → s.initMask.getLsbD ch.toNat = true → F32.isNaN a = false →
    ∃ t p, config.angleToPulse a = some p ∧ exec (.setangle ch a) s = .next t ∧
      t.trace = s.trace ++ [.writeDuty ch (pulseToDuty p)] ∧
      Runs 1 t { s with
        phase := .idle, pending := [], trace := s.trace ++ [.writeDuty ch (pulseToDuty p)]
        responses := s.responses ++ [0x00000000#32] }

/-- R69 and U1 with the model's choice (log 9): a NaN angle on a channel that passes validation writes an
arbitrary duty value, the next free one, and then answers `OK`. -/
def Obligations.SetangleOfNaNDrawsADuty : Prop :=
  ∀ (ch : Channel) (a : F32Bits) (s : State), Quiet s →
    ch.toNat < 16 → s.initMask.getLsbD ch.toNat = true → F32.isNaN a = true →
    ∃ t, exec (.setangle ch a) s = .next t ∧
      Runs 1 t { s with
        phase := .idle, pending := [], draws := s.draws + 1
        trace := s.trace ++ [.writeDuty ch (freeDutyValue s.draws)]
        responses := s.responses ++ [0x00000000#32] }

/-- R18: two `SETANGLE` commands with the same operands issue the same `WriteDuty` event, whatever the states
they meet, for an angle that has a pulse width and a channel initialised in both. -/
def Obligations.SameAngleSameEvent : Prop :=
  ∀ (ch : Channel) (a : F32Bits) (s s' : State), F32.isNaN a = false → ch.toNat < 16 →
    s.initMask.getLsbD ch.toNat = true → s'.initMask.getLsbD ch.toNat = true →
    ∃ t t' v, exec (.setangle ch a) s = .next t ∧ exec (.setangle ch a) s' = .next t' ∧
      t.trace = s.trace ++ [.writeDuty ch v] ∧ t'.trace = s'.trace ++ [.writeDuty ch v]

/-- R29, R25(b): a successful `SETPULSE` sets one whole compare value and leaves every other channel's, every
binding, every divider and every enable as they were. -/
def Obligations.SetpulseWritesOneCompareValue : Prop :=
  ∀ (ch : Channel) (p : PulseWidth) (s : State),
    ch.toNat < 16 → s.initMask.getLsbD ch.toNat = true →
    ∃ t, exec (.setpulse ch p) s = .next t ∧
      dutyOf ch t.trace = some (pulseToDuty p) ∧
      (∀ c, c ≠ ch → dutyOf c t.trace = dutyOf c s.trace) ∧
      (∀ c, boundSlice c t.trace = boundSlice c s.trace) ∧
      (∀ h, sliceDivider h t.trace = sliceDivider h s.trace) ∧
      (∀ h, sliceEnabled h t.trace = sliceEnabled h s.trace)

/-! ### SWEEP -/

/-- R85: a sweep on a channel that passes validation latches its four operands and starts in the direction of its
end; with equal angles it goes to the final call at once. No event is issued yet. -/
def Obligations.SweepEntryLatches : Prop :=
  ∀ (ch : Channel) (a b : F32Bits) (d : DelayMs) (s : State),
    ch.toNat < 16 → s.initMask.getLsbD ch.toNat = true → F32.isNaN a = false → F32.isNaN b = false →
    exec (.sweep ch a b d) s = .next { s with
      swCh := ch, swA := a, swEnd := b, swDly := d, phase := .busy
      pending :=
        if F32.lt a b = true then [.sweepWrite, .sweepSleep .up]
        else if F32.lt b a = true then [.sweepWrite, .sweepSleep .down]
        else [.sweepFinal, .respond ⟨.ok, false, false⟩] }

/-- R90 item 1: a sweep with a NaN operand on a channel that passes validation is refused. -/
def Obligations.SweepOfNaNIsRefused : Prop :=
  ∀ (ch : Channel) (a b : F32Bits) (d : DelayMs) (s : State),
    ch.toNat < 16 → s.initMask.getLsbD ch.toNat = true →
    (F32.isNaN a = true ∨ F32.isNaN b = true) →
    exec (.sweep ch a b d) s = .refused .nanSweepOperand

/-- R86, R87: one loop step writes the duty value of the loop angle, issues the delay, also a delay of zero,
and moves the loop angle by 1.0 in the sweep's direction; the loop goes on exactly while the angle lies
strictly before the end. -/
def Obligations.SweepStepWritesSleepsAdvances : Prop :=
  ∀ (s : State) (v : DutyValue), Quiet s → s.phase = .busy → s.swCh.toNat < 16 →
    s.initMask.getLsbD s.swCh.toNat = true → angleToDuty s.swA = some v →
    (s.pending = [.sweepWrite, .sweepSleep .up] →
      Runs 2 s { s with
        trace := s.trace ++ [.writeDuty s.swCh v, .sleep s.swDly]
        swA := F32.add s.swA 0x3F800000
        pending := if F32.lt (F32.add s.swA 0x3F800000) s.swEnd = true
          then [.sweepWrite, .sweepSleep .up]
          else [.sweepFinal, .respond ⟨.ok, false, false⟩] }) ∧
    (s.pending = [.sweepWrite, .sweepSleep .down] →
      Runs 2 s { s with
        trace := s.trace ++ [.writeDuty s.swCh v, .sleep s.swDly]
        swA := F32.sub s.swA 0x3F800000
        pending := if F32.lt s.swEnd (F32.sub s.swA 0x3F800000) = true
          then [.sweepWrite, .sweepSleep .down]
          else [.sweepFinal, .respond ⟨.ok, false, false⟩] })

/-- R88: the final call writes the duty value of `END` as the host gave it, no delay follows, and the sweep
answers `OK`. -/
def Obligations.SweepFinalCallSetsTheEnd : Prop :=
  ∀ (s : State) (v : DutyValue), Quiet s → s.phase = .busy → s.swCh.toNat < 16 →
    s.initMask.getLsbD s.swCh.toNat = true → angleToDuty s.swEnd = some v →
    s.pending = [.sweepFinal, .respond ⟨.ok, false, false⟩] →
    Runs 2 s { s with
      trace := s.trace ++ [.writeDuty s.swCh v]
      responses := s.responses ++ [0x00000000#32]
      phase := .idle, pending := [] }

/-- R89: nothing but reset interferes with a sweep. While one is under way and no reset comes, a step leaves the
block busy and inside the sweep, or owing its `OK`; it neither changes `INIT_MASK` nor accepts a command nor
responds; its inner write always passes validation and is issued on the sweep's channel, and its delay step issues
the delay and no write. The last step, in which only the `OK` is owed, issues nothing and accepts nothing. -/
def Obligations.NothingInterferesWithASweep : Prop :=
  ∀ s : State, Inv s → (∀ rest, s.host ≠ .reset :: rest) →
    (Sweeping s →
      s.phase = .busy ∧
      ∃ t, step s = .next t ∧ t.phase = .busy ∧
        (Sweeping t ∨ t.pending = [.respond ⟨.ok, false, false⟩]) ∧
        t.initMask = s.initMask ∧ (t.host = s.host ∨ s.host = .wait :: t.host) ∧
        t.swCh = s.swCh ∧ t.swEnd = s.swEnd ∧ t.swDly = s.swDly ∧ t.responses = s.responses ∧
        (∀ rest, s.pending = .sweepWrite :: rest →
          ∃ v, angleToDuty s.swA = some v ∧ t.trace = s.trace ++ [.writeDuty s.swCh v]) ∧
        (∀ d rest, s.pending = .sweepSleep d :: rest → t.trace = s.trace ++ [.sleep s.swDly]) ∧
        (∀ rest, s.pending = .sweepFinal :: rest →
          ∃ v, angleToDuty s.swEnd = some v ∧ t.trace = s.trace ++ [.writeDuty s.swCh v])) ∧
    (s.pending = [.respond ⟨.ok, false, false⟩] →
      s.phase = .busy ∧
      ∃ t, step s = .next t ∧ t.phase = .idle ∧
        t.initMask = s.initMask ∧ (t.host = s.host ∨ s.host = .wait :: t.host) ∧
        t.swCh = s.swCh ∧ t.swA = s.swA ∧ t.swEnd = s.swEnd ∧ t.swDly = s.swDly ∧
        t.trace = s.trace ∧ t.responses = s.responses ++ [0x00000000#32])

/-- R91, first sentences: a sweep that has ended, from a state whose host presents nothing more, has issued
`n + 1` writes and `n` delays, alternating, starting and ending with a write. -/
def Obligations.SweepTraceAlternates : Prop :=
  ∀ (ch : Channel) (a b : F32Bits) (d : DelayMs) (s t u : State) (k : Nat),
    s.host = [] → ch.toNat < 16 → s.initMask.getLsbD ch.toNat = true →
    exec (.sweep ch a b d) s = .next t → Runs k t u → u.phase = .idle →
    ∃ (vs : List DutyValue) (v : DutyValue),
      u.trace = s.trace ++ vs.flatMap (fun x => [.writeDuty ch x, .sleep d]) ++ [.writeDuty ch v]

/-- R91: where every angle `START`, `START` + 1.0, ... up to and past `END` is exactly a binary32 value, an
upward sweep has exactly `ceil(END - START)` loop steps, at exactly those angles, and a downward sweep
`ceil(START - END)`; with equal angles there is none. `x k` is the k-th of those angles, and `F32.position`
gives a value in units of 2^-149. That a loop step is two steps of the machine, and the end two more, is the
model's choice (log 2). -/
def Obligations.SweepStepCountIsTheCeiling : Prop :=
  ∀ (ch : Channel) (a b : F32Bits) (d : DelayMs) (s : State) (A B : Int) (n : Nat)
    (x : Nat → F32Bits),
    Quiet s → ch.toNat < 16 → s.initMask.getLsbD ch.toNat = true →
    F32.position (F32.ofBits a) = some A → F32.position (F32.ofBits b) = some B → x 0 = a →
    ((A ≤ B ∧ (B - A ≤ n * F32.one ∧ (n = 0 ∨ (n - 1 : Int) * F32.one < B - A)) ∧
        ∀ k ≤ n, F32.position (F32.ofBits (x k)) = some (A + k * F32.one)) ∨
     (B ≤ A ∧ (A - B ≤ n * F32.one ∧ (n = 0 ∨ (n - 1 : Int) * F32.one < A - B)) ∧
        ∀ k ≤ n, F32.position (F32.ofBits (x k)) = some (A - k * F32.one))) →
    ∃ t u v, ∃ w : Nat → DutyValue,
      exec (.sweep ch a b d) s = .next t ∧ Runs (2 * n + 2) t u ∧ u.phase = .idle ∧
      (∀ k < n, angleToDuty (x k) = some (w k)) ∧ angleToDuty b = some v ∧
      u.trace = s.trace ++ (List.range n).flatMap (fun k => [.writeDuty ch (w k), .sleep d]) ++
        [.writeDuty ch v] ∧
      u.responses = s.responses ++ [0x00000000#32]

/-- R90 item 3: a sweep whose angles are finite and within plus or minus 2^24 = 16777216 ends, with one
response, `OK`. -/
def Obligations.BoundedSweepTerminates : Prop :=
  ∀ (ch : Channel) (a b : F32Bits) (d : DelayMs) (s : State),
    Quiet s → ch.toNat < 16 → s.initMask.getLsbD ch.toNat = true →
    F32.isNaN a = false → F32.isNaN b = false →
    F32.lt 0x4B800000 a = false → F32.lt a 0xCB800000 = false →
    F32.lt 0x4B800000 b = false → F32.lt b 0xCB800000 = false →
    ∃ t n u, exec (.sweep ch a b d) s = .next t ∧ Runs n t u ∧ u.phase = .idle ∧
      u.responses = s.responses ++ [0x00000000#32]

/-- R90 item 2: a sweep whose loop angle stops changing before its end never ends: it issues the same write and
the same delay for ever, and never responds. -/
def Obligations.StuckSweepHangs : Prop :=
  ∀ (s : State) (v : DutyValue) (dir : Direction) (n : Nat), Quiet s → s.phase = .busy →
    s.swCh.toNat < 16 → s.initMask.getLsbD s.swCh.toNat = true → angleToDuty s.swA = some v →
    ((dir = .up ∧ F32.add s.swA 0x3F800000 = s.swA ∧ F32.lt s.swA s.swEnd = true) ∨
     (dir = .down ∧ F32.sub s.swA 0x3F800000 = s.swA ∧ F32.lt s.swEnd s.swA = true)) →
    s.pending = [.sweepWrite, .sweepSleep dir] →
    Runs (2 * n) s { s with
      trace := s.trace ++ (List.range n).flatMap fun _ => [.writeDuty s.swCh v, .sleep s.swDly] }

/-- R90 item 2, the loop angles that stop changing: 2^24 and plus infinity going up, -2^24, minus infinity and
plus infinity going down. -/
def Obligations.LoopAnglesThatStopChanging : Prop :=
  F32.add 0x4B800000 0x3F800000 = 0x4B800000 ∧ F32.add 0x7F800000 0x3F800000 = 0x7F800000 ∧
  F32.sub 0xCB800000 0x3F800000 = 0xCB800000 ∧ F32.sub 0xFF800000 0x3F800000 = 0xFF800000 ∧
  F32.sub 0x7F800000 0x3F800000 = 0x7F800000

/-- R92, the laws of a sweep that ends, from a state whose host presents nothing more: its last event writes the
duty value of `END`; the duty values written are monotone in the sweep's direction; with equal angles there is
one write and no delay; `INIT_MASK` is unchanged; the response is `OK` with no advisory. -/
def Obligations.SweepLaws : Prop :=
  ∀ (ch : Channel) (a b : F32Bits) (d : DelayMs) (s t u : State) (k : Nat),
    s.host = [] → ch.toNat < 16 → s.initMask.getLsbD ch.toNat = true →
    exec (.sweep ch a b d) s = .next t → Runs k t u → u.phase = .idle →
    ∃ es v, u.trace = s.trace ++ es ∧ angleToDuty b = some v ∧
      es.getLast? = some (.writeDuty ch v) ∧
      (F32.lt a b = true → (dutiesWritten es).Pairwise (· ≤ ·)) ∧
      (F32.lt b a = true → (dutiesWritten es).Pairwise (· ≥ ·)) ∧
      (F32.lt a b = false → F32.lt b a = false → es = [.writeDuty ch v]) ∧
      u.initMask = s.initMask ∧ u.responses = s.responses ++ [0x00000000#32]

/-! ### Frames and whole-machine rules -/

/-- The frame of the five commands' meanings, for each that answers a next state. That the meaning of `INIT`
leaves `INIT_MASK`, and those of `INIT` and `SWEEP` the trace, is the model's choice: phase 2 and the events of
R55 and R86 are later steps of their own (log 2), and the accepting step of the other commands does their one
event (log 4). -/
def Obligations.CommandFrame : Prop :=
  ∀ (i : Instr) (s t : State), exec i s = .next t →
    t.initMask = s.initMask ∧ t.host = s.host ∧
    ((∀ ch a b d, i ≠ .sweep ch a b d) →
      t.swCh = s.swCh ∧ t.swA = s.swA ∧ t.swEnd = s.swEnd ∧ t.swDly = s.swDly) ∧
    ((∀ ch a, i ≠ .setangle ch a) → t.draws = s.draws) ∧
    ((∀ ch a, i ≠ .setangle ch a) → (∀ ch p, i ≠ .setpulse ch p) → t.trace = s.trace) ∧
    (∀ ch, ((∃ a, i = .setangle ch a) ∨ ∃ p, i = .setpulse ch p) →
      (t.trace = s.trace ∨ ∃ v, t.trace = s.trace ++ [.writeDuty ch v]) ∧
      ∀ c, c ≠ ch → dutyOf c t.trace = dutyOf c s.trace)

/-- The frame of one step of an executing command: `INIT_MASK` changes only in `INIT` phase 2, the loop angle
only after a delay, the other working registers never; a response is produced only by the last step; a duty value
is written only by the centre command of `INIT`, on its channel, and by the writes of a sweep, on `SW_CH`, and
every other channel's compare value stays; each of the other operations issues its own event or none (R15, R55,
R86, R88). That each of these is a step is the model's choice, log 2. -/
def Obligations.SequencerFrame : Prop :=
  ∀ (op : MicroOp) (s : State),
    let t := runOp op s
    t.host = s.host ∧ t.swCh = s.swCh ∧ t.swEnd = s.swEnd ∧ t.swDly = s.swDly ∧
    ((∀ m, op ≠ .setMask m) → t.initMask = s.initMask) ∧
    ((∀ d, op ≠ .sweepSleep d) → t.swA = s.swA) ∧
    ((∀ r, op ≠ .respond r) → t.responses = s.responses ∧ t.phase = s.phase) ∧
    ((∀ d, op ≠ .sweepSleep d) → (∀ r, op ≠ .respond r) → t.pending = s.pending) ∧
    (op ≠ .sweepWrite → op ≠ .sweepFinal → t.draws = s.draws) ∧
    (∀ c, op = .bind c → t.trace = s.trace ++ [.bind c (Config.sliceOf c)]) ∧
    (∀ c, op = .configure c → t.trace = s.trace ++ [.configure (Config.sliceOf c) 0x42180000#32]) ∧
    (∀ c, op = .enable c → t.trace = s.trace ++ [.enable (Config.sliceOf c)]) ∧
    (∀ m, op = .setMask m → t.initMask = m ∧ t.trace = s.trace) ∧
    (∀ d, op = .sweepSleep d → t.trace = s.trace ++ [.sleep s.swDly]) ∧
    (∀ r, op = .respond r → t.responses = s.responses ++ [r.word] ∧ t.phase = .idle ∧
      t.trace = s.trace) ∧
    (∀ c, (op = .centre c ∨ (op = .sweepWrite ∨ op = .sweepFinal) ∧ c = s.swCh) →
      (t.trace = s.trace ∨ ∃ v, t.trace = s.trace ++ [.writeDuty c v]) ∧
      ∀ c', c' ≠ c → dutyOf c' t.trace = dutyOf c' s.trace) ∧
    ((∀ c, op ≠ .centre c) → op ≠ .sweepWrite → op ≠ .sweepFinal →
      ∀ c, dutyOf c t.trace = dutyOf c s.trace)

/-- R13, R57: `INIT_MASK` is written only by `INIT`, all 16 bits at once with its operand, and by reset. -/
def Obligations.OnlyInitWritesTheMask : Prop :=
  ∀ s t : State, step s = .next t →
    t.initMask = s.initMask ∨
    (∃ rest, s.host = .reset :: rest ∧ t.initMask = 0x0000#16) ∨
    (∃ mask rest, s.phase = .busy ∧ s.pending = .setMask mask :: rest ∧ t.initMask = mask)

/-- Only `INIT` makes the sequencer write the mask: whatever a step leaves pending, a write of the mask was
pending before it or comes from an `INIT` word accepted in it, with its operand (R13). -/
def Obligations.OnlyInitSchedulesAMaskWrite : Prop :=
  ∀ (s t : State) (mask : ChannelMask), step s = .next t → MicroOp.setMask mask ∈ t.pending →
    MicroOp.setMask mask ∈ s.pending ∨
    (∃ w rest, s.phase = .idle ∧ s.host = .present w :: rest ∧ decode w = .ok (.init mask))

/-- In one step at most one backend event is issued or one response produced, never both: the grain of the
model's step, its choice (log 2), made so that R32's order of events and response is the order of steps. What has
been issued and answered stands, in every step, a reset's too (R131, R132). -/
def Obligations.StepIssuesAtMostOne : Prop :=
  ∀ s t : State, step s = .next t →
    (t.trace = s.trace ∧ t.responses = s.responses) ∨
    (∃ e, t.trace = s.trace ++ [e] ∧ t.responses = s.responses) ∨
    (∃ r, t.trace = s.trace ∧ t.responses = s.responses ++ [r] ∧ t.phase = .idle)

/-- Every step keeps the invariant. -/
def Obligations.EveryStepKeepsTheInvariant : Prop :=
  ∀ s t : State, Inv s → step s = .next t → Inv t

/-- The invariant holds right after reset. -/
def Obligations.ResetMeetsTheInvariant : Prop := Inv State.reset

/-- From a state that meets the invariant a step answers a next state, or refuses a `SWEEP` with a NaN operand on a
channel that passes validation (R90 item 1). The spec gives a `SETANGLE` with a NaN no meaning either (R69, R140);
that it answers is the model's choice (log 9), and that an idle block steps with nothing presented is, too
(log 18). -/
def Obligations.NothingElseStopsTheBlock : Prop :=
  ∀ s : State, Inv s →
    (∃ t, step s = .next t) ∨
    (step s = .refused .nanSweepOperand ∧
      ∃ w rest ch a b d, s.phase = .idle ∧ s.host = .present w :: rest ∧
        decode w = .ok (.sweep ch a b d) ∧ (F32.isNaN a = true ∨ F32.isNaN b = true) ∧
        ch.toNat < 16 ∧ s.initMask.getLsbD ch.toNat = true)

/-- R116, R118: whatever the host does from reset, for any number of steps, resets in the middle of commands
included, every event of the trace is one the backend may be sent where it stands: `WriteDuty` only to a bound,
configured and enabled channel 0 to 15, with a duty value of at most 215544; `Configure` and `Enable` only with
the handle of the `Bind` of the same `INIT`, which stands right before them; the divider always 38.0. -/
def Obligations.EveryRunKeepsTheBackendContract : Prop :=
  ∀ (actions : List HostInput) (n : Nat) (t : State),
    Runs n { State.reset with host := actions } t → TraceOk t.trace

/-- R108, R12: while no `INIT` executes and no reset comes, every channel's state stays as it is. -/
def Obligations.ChannelStatesChangeOnlyByInitOrReset : Prop :=
  ∀ (s t : State) (c : Channel), step s = .next t → isInitialized c t ≠ isInitialized c s →
    (∃ rest, s.host = .reset :: rest) ∨
    (∃ mask rest, s.phase = .busy ∧ s.pending = .setMask mask :: rest ∧
      isInitialized c t = (decide (c.toNat < 16) && mask.getLsbD c.toNat))

/-! ### Reset -/

/-- R21: what reset leaves, where the spec gives a value. -/
def Obligations.ResetValues : Prop :=
  State.reset.initMask = 0x0000#16 ∧ State.reset.phase = .idle ∧
  ∀ c : Channel, isInitialized c State.reset = false

/-- R130 to R132: the reset input, asserted at any time, a command executing or not, gives the register and the
phase their reset values, abandons the command, issues no event and produces no response; what was issued and
answered stands. -/
def Obligations.ResetAbandonsTheCommand : Prop :=
  ∀ (s : State) (rest : List HostInput), s.host = .reset :: rest →
    ∃ t, step s = .next t ∧ t.initMask = 0x0000#16 ∧ t.phase = .idle ∧ t.pending = [] ∧
      t.trace = s.trace ∧ t.responses = s.responses ∧ t.host = rest

/-- R133: until an `INIT`, the servo commands answer `NotInitialized` on channels 0 to 15 and `InvalidChannel`
on the others, `ISINIT` answers 0, and none of them touches the backend or the register. -/
def Obligations.BeforeInitNothingTouchesTheBackend : Prop :=
  ∀ (s : State) (i : Instr), s.initMask = 0x0000#16 → (∀ m, i ≠ .init m) →
    ∃ t r, exec i s = .next t ∧ t.trace = s.trace ∧ t.initMask = 0x0000#16 ∧ t.phase = .idle ∧
      t.responses = s.responses ++ [r] ∧
      r = (match i with
        | .init _ => 0x00000000#32
        | .isinit _ => 0x00000000#32
        | .setangle ch _ => if ch.toNat < 16 then 0x00000002#32 else 0x00000001#32
        | .setpulse ch _ => if ch.toNat < 16 then 0x00000002#32 else 0x00000001#32
        | .sweep ch _ _ _ => if ch.toNat < 16 then 0x00000002#32 else 0x00000001#32)
end

