-- ==== Sys2Proof/Laws/Backend.lean ====
section
/-! SUPPORT. The views of the backend when events are added to the trace (spec/10_state.md R19). -/

namespace Sys2Proof.Machine

/-- The last write of the later events decides, else the earlier ones (R116: a value persists until the next
write to the same channel). -/
theorem dutyOf_append (c : Channel) (a b : List Event) :
    dutyOf c (a ++ b) = (dutyOf c b).or (dutyOf c a) := by
  induction a with
  | nil => simp [dutyOf]
  | cons e a ih =>
    simp only [List.cons_append, dutyOf, ih]
    cases dutyOf c b <;> simp

theorem boundSlice_append (c : Channel) (a b : List Event) :
    boundSlice c (a ++ b) = (boundSlice c b).or (boundSlice c a) := by
  induction a with
  | nil => simp [boundSlice]
  | cons e a ih =>
    simp only [List.cons_append, boundSlice, ih]
    cases boundSlice c b <;> simp

theorem sliceDivider_append (h : SliceHandle) (a b : List Event) :
    sliceDivider h (a ++ b) = (sliceDivider h b).or (sliceDivider h a) := by
  induction a with
  | nil => simp [sliceDivider]
  | cons e a ih =>
    simp only [List.cons_append, sliceDivider, ih]
    cases sliceDivider h b <;> simp

@[simp] theorem dutyOf_writeDuty_self (c : Channel) (v : DutyValue) :
    dutyOf c [.writeDuty c v] = some v := by simp [dutyOf]

theorem dutyOf_writeDuty_ne {c d : Channel} (v : DutyValue) (h : c ≠ d) :
    dutyOf d [.writeDuty c v] = none := by simp [dutyOf, h]

@[simp] theorem boundSlice_writeDuty (c d : Channel) (v : DutyValue) :
    boundSlice d [.writeDuty c v] = none := rfl

@[simp] theorem sliceDivider_writeDuty (c : Channel) (h : SliceHandle) (v : DutyValue) :
    sliceDivider h [.writeDuty c v] = none := rfl

/-- Once enabled, a slice stays enabled (R115). -/
theorem sliceEnabled_append (h : SliceHandle) (a b : List Event) :
    sliceEnabled h (a ++ b) = (sliceEnabled h b).or (sliceEnabled h a) := by
  by_cases hb : Event.enable h ∈ b <;> by_cases ha : Event.enable h ∈ a <;> simp [sliceEnabled, ha, hb]

@[simp] theorem sliceEnabled_writeDuty (c : Channel) (h : SliceHandle) (v : DutyValue) :
    sliceEnabled h [.writeDuty c v] = none := by simp [sliceEnabled]

/-- More events leave a channel armed. -/
theorem armed_append {c : Channel} {a : List Event} (b : List Event) (h : armed c a) :
    armed c (a ++ b) :=
  ⟨List.mem_append_left _ h.1, List.mem_append_left _ h.2.1, List.mem_append_left _ h.2.2⟩

end Sys2Proof.Machine
end

