-- ==== Sys2Proof/Laws/Float32.lean ====
section
/-! SUPPORT. Laws of the binary32 arithmetic (spec/00_scope.md section 6, spec/41_conversion.md R68): rounding
is to a nearest representable magnitude, monotone, and exact on representable ones; patterns and values
correspond. -/

namespace Sys2Proof.Machine.F32

/-! ### `roundQuot` -/

/-- The rounded quotient lies within half a unit of the exact one. -/
theorem roundQuot_bounds (n : Nat) {d : Nat} (hd : 0 < d) :
    2 * n ≤ 2 * (d * roundQuot n d) + d ∧ 2 * (d * roundQuot n d) ≤ 2 * n + d := by
  have h := Nat.div_add_mod n d
  have hr := Nat.mod_lt n hd
  unfold roundQuot
  simp only
  split
  · omega
  · split
    · rw [Nat.mul_add]; omega
    · have : n / d % 2 < 2 := Nat.mod_lt _ (by decide)
      rw [Nat.mul_add]
      rcases Nat.lt_or_ge (n / d % 2) 1 with h0 | h1
      · have : n / d % 2 = 0 := by omega
        rw [this]; omega
      · have : n / d % 2 = 1 := by omega
        rw [this]; omega

theorem roundQuot_le (n d : Nat) : roundQuot n d ≤ n / d + 1 := by
  unfold roundQuot
  simp only
  have : n / d % 2 < 2 := Nat.mod_lt _ (by decide)
  split
  · omega
  · split <;> omega

theorem le_roundQuot (n d : Nat) : n / d ≤ roundQuot n d := by
  unfold roundQuot
  simp only
  split
  · omega
  · split <;> omega

theorem roundQuot_mul_right (m : Nat) {d : Nat} (hd : 0 < d) : roundQuot (m * d) d = m := by
  unfold roundQuot
  simp [Nat.mul_div_cancel _ hd, hd]

theorem roundQuot_mono {n n' : Nat} (d : Nat) (h : n ≤ n') (hd : 0 < d) :
    roundQuot n d ≤ roundQuot n' d := by
  by_contra hc
  have h1 := roundQuot_bounds n hd
  have h2 := roundQuot_bounds n' hd
  have h3 : d * (roundQuot n' d + 1) ≤ d * roundQuot n d := Nat.mul_le_mul_left _ (by omega)
  rw [Nat.mul_add] at h3
  have : n = n' := by omega
  subst this
  exact hc le_rfl

/-! ### Representable magnitudes -/

/-- A magnitude with a significand of at most 24 bits. -/
def Representable (mag : Nat) : Prop := ∃ m s, m < 2 ^ 24 ∧ mag = m * 2 ^ s

theorem lt_scale (mag : Nat) : mag < 2 ^ 24 * 2 ^ scale mag := by
  have h := Nat.lt_log2_self (n := mag)
  refine h.trans_le ?_
  rw [← Nat.pow_add]
  exact Nat.pow_le_pow_right (by decide) (by unfold scale; omega)

theorem scale_le {mag : Nat} (h : 0 < scale mag) : 2 ^ 23 * 2 ^ scale mag ≤ mag := by
  have h0 : mag ≠ 0 := by rintro rfl; simp [scale] at h
  have := Nat.log2_self_le h0
  refine le_trans ?_ this
  rw [← Nat.pow_add]
  exact Nat.pow_le_pow_right (by decide) (by unfold scale at *; omega)

theorem scale_mono {a b : Nat} (h : a ≤ b) : scale a ≤ scale b := by
  unfold scale
  have : a.log2 ≤ b.log2 := by
    rcases Nat.eq_zero_or_pos a with rfl | ha
    · simp
    · exact (Nat.le_log2 (by omega)).2 (le_trans (Nat.log2_self_le (by omega)) h)
  omega

/-- The scale is the only one that puts a magnitude's significand in its range. -/
theorem scale_eq {mag s : Nat} (hlt : mag < 2 ^ 24 * 2 ^ s) (hle : s = 0 ∨ 2 ^ 23 * 2 ^ s ≤ mag) :
    scale mag = s := by
  have h1 := lt_scale mag
  rcases Nat.lt_trichotomy (scale mag) s with h | h | h
  · have h2 : 2 ^ 23 * 2 ^ s ≤ mag := by rcases hle with rfl | h2 <;> [omega; exact h2]
    have : 2 ^ 24 * 2 ^ scale mag ≤ 2 ^ 23 * 2 ^ s := by
      rw [← Nat.pow_add, ← Nat.pow_add]
      exact Nat.pow_le_pow_right (by decide) (by omega)
    omega
  · exact h
  · have h2 := scale_le (mag := mag) (by omega)
    have : 2 ^ 24 * 2 ^ s ≤ 2 ^ 23 * 2 ^ scale mag := by
      rw [← Nat.pow_add, ← Nat.pow_add]
      exact Nat.pow_le_pow_right (by decide) (by omega)
    omega

/-- A representable magnitude is a whole number of its scale's units. -/
theorem Representable.dvd {mag : Nat} (h : Representable mag) : 2 ^ scale mag ∣ mag := by
  obtain ⟨m, s, hm, rfl⟩ := h
  rcases Nat.eq_zero_or_pos m with rfl | hpos
  · simp
  · have hs : scale (m * 2 ^ s) ≤ s := by
      by_contra hc
      have h2 := scale_le (mag := m * 2 ^ s) (by omega)
      have h3 : 2 ^ 24 * 2 ^ s ≤ 2 ^ 23 * 2 ^ scale (m * 2 ^ s) := by
        rw [← Nat.pow_add, ← Nat.pow_add]
        exact Nat.pow_le_pow_right (by decide) (by omega)
      have h4 : m * 2 ^ s < 2 ^ 24 * 2 ^ s := Nat.mul_lt_mul_of_pos_right hm (by positivity)
      omega
    exact Dvd.dvd.mul_left (Nat.pow_dvd_pow 2 hs) m

/-! ### `roundMag` -/

theorem quotient_scaled (n d s : Nat) : n / (d * 2 ^ s) = n / d / 2 ^ s := by
  rw [Nat.div_div_eq_div_mul]

/-- The rounded significand is at most 2^24, and at least 2^23 where the scale is not zero. -/
theorem significand_bounds (n d : Nat) :
    roundQuot n (d * 2 ^ scale (n / d)) ≤ 2 ^ 24 ∧
    (0 < scale (n / d) → 2 ^ 23 ≤ roundQuot n (d * 2 ^ scale (n / d))) := by
  have h1 := roundQuot_le n (d * 2 ^ scale (n / d))
  have h2 := le_roundQuot n (d * 2 ^ scale (n / d))
  rw [quotient_scaled] at h1 h2
  constructor
  · have : n / d / 2 ^ scale (n / d) < 2 ^ 24 :=
      (Nat.div_lt_iff_lt_mul (by positivity)).2 (lt_scale _)
    omega
  · intro hs
    refine le_trans ?_ h2
    exact (Nat.le_div_iff_mul_le (by positivity)).2 (scale_le hs)

/-- Rounding gives a representable magnitude. -/
theorem representable_roundMag (n d : Nat) : Representable (roundMag n d) := by
  have h := (significand_bounds n d).1
  unfold roundMag
  rcases Nat.lt_or_ge (roundQuot n (d * 2 ^ scale (n / d))) (2 ^ 24) with hlt | hge
  · exact ⟨_, _, hlt, rfl⟩
  · refine ⟨2 ^ 23, scale (n / d) + 1, by decide, ?_⟩
    have : roundQuot n (d * 2 ^ scale (n / d)) = 2 ^ 24 := by omega
    simp only [this]
    rw [pow_succ]; ring

/-- Rounding is monotone. -/
theorem roundMag_mono {n n' d : Nat} (h : n ≤ n') (hd : 0 < d) : roundMag n d ≤ roundMag n' d := by
  have hq : n / d ≤ n' / d := Nat.div_le_div_right h
  have hs := scale_mono hq
  unfold roundMag
  rcases Nat.lt_or_eq_of_le hs with hlt | heq
  · have h1 := (significand_bounds n d).1
    have h2 := (significand_bounds n' d).2 (by omega)
    calc roundQuot n (d * 2 ^ scale (n / d)) * 2 ^ scale (n / d)
        ≤ 2 ^ 24 * 2 ^ scale (n / d) := Nat.mul_le_mul_right _ h1
      _ ≤ 2 ^ 23 * 2 ^ scale (n' / d) := by
        rw [← Nat.pow_add, ← Nat.pow_add]
        exact Nat.pow_le_pow_right (by decide) (by omega)
      _ ≤ _ := Nat.mul_le_mul_right _ h2
  · simp only [heq]
    exact Nat.mul_le_mul_right _ (roundQuot_mono _ h (by positivity))

/-- A representable magnitude rounds to itself. -/
theorem roundMag_of_representable {mag : Nat} {d : Nat} (hd : 0 < d) (h : Representable mag) :
    roundMag (mag * d) d = mag := by
  unfold roundMag
  simp only [Nat.mul_div_cancel _ hd]
  obtain ⟨k, hk⟩ := h.dvd
  have e : roundQuot (mag * d) (d * 2 ^ scale mag) = k := by
    have : mag * d = k * (d * 2 ^ scale mag) := by
      conv_lhs => rw [hk]
      ring
    rw [this]
    exact roundQuot_mul_right _ (by positivity)
  rw [e, Nat.mul_comm]
  exact hk.symm

/-- Rounding moves a magnitude by at most half a unit of its scale. -/
theorem roundMag_near (n : Nat) {d : Nat} (hd : 0 < d) :
    2 * n ≤ 2 * (d * roundMag n d) + d * 2 ^ scale (n / d) ∧
    2 * (d * roundMag n d) ≤ 2 * n + d * 2 ^ scale (n / d) := by
  have h := roundQuot_bounds n (d := d * 2 ^ scale (n / d)) (by positivity)
  unfold roundMag
  simp only
  have e : d * (roundQuot n (d * 2 ^ scale (n / d)) * 2 ^ scale (n / d)) =
      d * 2 ^ scale (n / d) * roundQuot n (d * 2 ^ scale (n / d)) := by ring
  rw [e]
  exact h

/-! ### Patterns and values -/

theorem unit_pos : 0 < one := by unfold one; positivity

/-- The largest exponent field a finite magnitude below the limit gives. -/
theorem scale_lt_of_lt_limit {mag : Nat} (h : mag < limit) : scale mag ≤ 253 := by
  by_contra hc
  have h1 := scale_le (mag := mag) (by omega)
  have h2 : (2 : Nat) ^ 23 * 2 ^ 254 ≤ 2 ^ 23 * 2 ^ scale mag :=
    Nat.mul_le_mul_left _ (Nat.pow_le_pow_right (by decide) (by omega))
  have h3 : limit = 2 ^ 23 * 2 ^ 254 := by unfold limit one; rw [← pow_add, ← pow_add]
  omega

/-- The low 31 bits of a finite pattern: exponent field and fraction. -/
theorem magBits_eq {mag : Nat} (h : mag < limit) :
    magBits mag < 255 * 2 ^ 23 := by
  have hs := scale_lt_of_lt_limit h
  have : mag / 2 ^ scale mag < 2 ^ 24 := (Nat.div_lt_iff_lt_mul (by positivity)).2 (lt_scale _)
  unfold magBits
  omega

theorem ofBits_eq (b : F32Bits) :
    ofBits b =
      if b.toNat / 2 ^ 23 % 2 ^ 8 = 255 then
        (if b.toNat % 2 ^ 23 = 0 then .inf (b.getLsbD 31) else .nan)
      else if b.toNat / 2 ^ 23 % 2 ^ 8 = 0 then .fin (b.getLsbD 31) (b.toNat % 2 ^ 23)
      else .fin (b.getLsbD 31) ((2 ^ 23 + b.toNat % 2 ^ 23) * 2 ^ (b.toNat / 2 ^ 23 % 2 ^ 8 - 1)) := by
  simp only [ofBits, BitVec.extractLsb'_toNat, Nat.shiftRight_eq_div_pow, Nat.pow_zero, Nat.div_one]

theorem sign_of_ofNat (neg : Bool) {k : Nat} (hk : k < 2 ^ 31) :
    (BitVec.ofNat 32 ((if neg then 2 ^ 31 else 0) + k)).getLsbD 31 = neg := by
  rw [BitVec.getLsbD_ofNat, Nat.testBit_eq_decide_div_mod_eq]
  cases neg
  · simp; omega
  · simp; omega

/-- The value of the pattern of a representable magnitude is that magnitude. -/
theorem ofBits_toBits_fin {neg : Bool} {mag : Nat} (hr : Representable mag) (hl : mag < limit) :
    ofBits (toBits (.fin neg mag)) = .fin neg mag := by
  have hm := magBits_eq hl
  have hs := scale_lt_of_lt_limit hl
  have hsig : mag / 2 ^ scale mag < 2 ^ 24 := (Nat.div_lt_iff_lt_mul (by positivity)).2 (lt_scale _)
  have hdvd : mag / 2 ^ scale mag * 2 ^ scale mag = mag := Nat.div_mul_cancel hr.dvd
  have hn : (toBits (.fin neg mag)).toNat = (if neg then 2 ^ 31 else 0) + magBits mag := by
    simp only [toBits, BitVec.toNat_ofNat]
    cases neg <;> simp <;> omega
  have hsign : (toBits (.fin neg mag)).getLsbD 31 = neg := sign_of_ofNat neg (by omega)
  have hlow : ∀ j, (toBits (.fin neg mag)).toNat / 2 ^ 23 % 2 ^ 8 = magBits mag / 2 ^ 23 ∧
      (toBits (.fin neg mag)).toNat % 2 ^ 23 = magBits mag % 2 ^ 23 ∨ j = 1 := by
    intro j; left
    rw [hn]; cases neg <;> simp <;> omega
  obtain ⟨he, hf⟩ | h := hlow 0
  swap
  · cases h
  rw [ofBits_eq, he, hf, hsign]
  have hne : magBits mag / 2 ^ 23 ≠ 255 := by omega
  rw [if_neg hne]
  rcases Nat.lt_or_ge mag (2 ^ 23) with hsub | hnorm
  · have h0 : scale mag = 0 := scale_eq (by omega) (.inl rfl)
    have : magBits mag = mag := by simp [magBits, h0]
    rw [this, if_pos (by omega)]
    congr 1
    omega
  · have hge : 2 ^ 23 ≤ mag / 2 ^ scale mag := by
      rcases Nat.eq_zero_or_pos (scale mag) with h0 | hpos
      · rw [h0]; simpa using hnorm
      · exact (Nat.le_div_iff_mul_le (by positivity)).2 (scale_le hpos)
    have hq : magBits mag / 2 ^ 23 = scale mag + 1 := by unfold magBits; omega
    have hf' : magBits mag % 2 ^ 23 = mag / 2 ^ scale mag - 2 ^ 23 := by unfold magBits; omega
    rw [hq, hf', if_neg (by omega)]
    have e : 2 ^ 23 + (mag / 2 ^ scale mag - 2 ^ 23) = mag / 2 ^ scale mag :=
      Nat.add_sub_cancel' hge
    rw [e, Nat.add_sub_cancel, hdvd]

theorem ofBits_toBits_inf (neg : Bool) : ofBits (toBits (.inf neg)) = .inf neg := by
  cases neg <;> decide

/-- The value of a pattern is a NaN, an infinity, or a representable magnitude below the limit. -/
theorem ofBits_cases (b : F32Bits) :
    ofBits b = .nan ∨ (∃ neg, ofBits b = .inf neg) ∨
    ∃ neg mag, Representable mag ∧ mag < limit ∧ ofBits b = .fin neg mag := by
  rw [ofBits_eq]
  split
  · split
    · right; left; exact ⟨_, rfl⟩
    · left; rfl
  · next h255 =>
    right; right
    have hlim : limit = 2 ^ 24 * 2 ^ 253 := by unfold limit one; rw [← pow_add, ← pow_add]
    split
    · refine ⟨_, _, ⟨_, 0, ?_, (by simp; rfl)⟩, ?_, rfl⟩
      · omega
      · have : b.toNat % 2 ^ 23 < 2 ^ 24 * 1 := by omega
        refine this.trans_le ?_
        rw [hlim]
        exact Nat.mul_le_mul_left _ Nat.one_le_two_pow
    · refine ⟨_, _, ⟨_, _, ?_, rfl⟩, ?_, rfl⟩
      · omega
      · rw [hlim]
        have h1 : 2 ^ 23 + b.toNat % 2 ^ 23 < 2 ^ 24 := by omega
        refine (Nat.mul_lt_mul_of_pos_right h1 (by positivity)).trans_le ?_
        exact Nat.mul_le_mul_left _ (Nat.pow_le_pow_right (by decide) (by omega))

/-- A rounded result is a value of a pattern: an infinity, or representable below the limit. -/
theorem ofBits_toBits_finish (neg : Bool) (n d : Nat) :
    ofBits (toBits (finish neg (roundMag n d))) = finish neg (roundMag n d) := by
  unfold finish
  split
  · next h => exact ofBits_toBits_fin (representable_roundMag n d) h
  · exact ofBits_toBits_inf neg

end Sys2Proof.Machine.F32
end

