-- ==== Sys2Proof/Laws/State.lean ====
section
/-! SUPPORT. One lemma per field of State per operation that updates it, each true by `rfl`. -/

namespace Sys2Proof.Machine

variable (s : State)

/-! ### `emit` -/

@[simp] theorem emit_initMask (e : Event) : (emit e s).initMask = s.initMask := rfl
@[simp] theorem emit_phase (e : Event) : (emit e s).phase = s.phase := rfl
@[simp] theorem emit_swCh (e : Event) : (emit e s).swCh = s.swCh := rfl
@[simp] theorem emit_swA (e : Event) : (emit e s).swA = s.swA := rfl
@[simp] theorem emit_swEnd (e : Event) : (emit e s).swEnd = s.swEnd := rfl
@[simp] theorem emit_swDly (e : Event) : (emit e s).swDly = s.swDly := rfl
@[simp] theorem emit_pending (e : Event) : (emit e s).pending = s.pending := rfl
@[simp] theorem emit_trace (e : Event) : (emit e s).trace = s.trace ++ [e] := rfl
@[simp] theorem emit_responses (e : Event) : (emit e s).responses = s.responses := rfl
@[simp] theorem emit_host (e : Event) : (emit e s).host = s.host := rfl
@[simp] theorem emit_draws (e : Event) : (emit e s).draws = s.draws := rfl

/-! ### `respond` -/

@[simp] theorem respond_initMask (r : Response) : (respond r s).initMask = s.initMask := rfl
@[simp] theorem respond_phase (r : Response) : (respond r s).phase = .idle := rfl
@[simp] theorem respond_swCh (r : Response) : (respond r s).swCh = s.swCh := rfl
@[simp] theorem respond_swA (r : Response) : (respond r s).swA = s.swA := rfl
@[simp] theorem respond_swEnd (r : Response) : (respond r s).swEnd = s.swEnd := rfl
@[simp] theorem respond_swDly (r : Response) : (respond r s).swDly = s.swDly := rfl
@[simp] theorem respond_pending (r : Response) : (respond r s).pending = [] := rfl
@[simp] theorem respond_trace (r : Response) : (respond r s).trace = s.trace := rfl
@[simp] theorem respond_responses (r : Response) : (respond r s).responses = s.responses ++ [r.word] := rfl
@[simp] theorem respond_host (r : Response) : (respond r s).host = s.host := rfl
@[simp] theorem respond_draws (r : Response) : (respond r s).draws = s.draws := rfl

/-! ### `raise` -/

@[simp] theorem raise_initMask (c : Status) : (raise c s).initMask = s.initMask := rfl
@[simp] theorem raise_phase (c : Status) : (raise c s).phase = .idle := rfl
@[simp] theorem raise_swCh (c : Status) : (raise c s).swCh = s.swCh := rfl
@[simp] theorem raise_swA (c : Status) : (raise c s).swA = s.swA := rfl
@[simp] theorem raise_swEnd (c : Status) : (raise c s).swEnd = s.swEnd := rfl
@[simp] theorem raise_swDly (c : Status) : (raise c s).swDly = s.swDly := rfl
@[simp] theorem raise_pending (c : Status) : (raise c s).pending = [] := rfl
@[simp] theorem raise_trace (c : Status) : (raise c s).trace = s.trace := rfl
@[simp] theorem raise_responses (c : Status) : (raise c s).responses = s.responses ++ [(⟨c, false, false⟩ : Response).word] := rfl
@[simp] theorem raise_host (c : Status) : (raise c s).host = s.host := rfl
@[simp] theorem raise_draws (c : Status) : (raise c s).draws = s.draws := rfl

/-! ### `begin` -/

@[simp] theorem begin_initMask (ops : List MicroOp) : (begin ops s).initMask = s.initMask := rfl
@[simp] theorem begin_phase (ops : List MicroOp) : (begin ops s).phase = .busy := rfl
@[simp] theorem begin_swCh (ops : List MicroOp) : (begin ops s).swCh = s.swCh := rfl
@[simp] theorem begin_swA (ops : List MicroOp) : (begin ops s).swA = s.swA := rfl
@[simp] theorem begin_swEnd (ops : List MicroOp) : (begin ops s).swEnd = s.swEnd := rfl
@[simp] theorem begin_swDly (ops : List MicroOp) : (begin ops s).swDly = s.swDly := rfl
@[simp] theorem begin_pending (ops : List MicroOp) : (begin ops s).pending = ops := rfl
@[simp] theorem begin_trace (ops : List MicroOp) : (begin ops s).trace = s.trace := rfl
@[simp] theorem begin_responses (ops : List MicroOp) : (begin ops s).responses = s.responses := rfl
@[simp] theorem begin_host (ops : List MicroOp) : (begin ops s).host = s.host := rfl
@[simp] theorem begin_draws (ops : List MicroOp) : (begin ops s).draws = s.draws := rfl

/-! ### `accept` -/

@[simp] theorem accept_initMask (rest : List HostInput) : (accept rest s).initMask = s.initMask := rfl
@[simp] theorem accept_phase (rest : List HostInput) : (accept rest s).phase = .busy := rfl
@[simp] theorem accept_swCh (rest : List HostInput) : (accept rest s).swCh = s.swCh := rfl
@[simp] theorem accept_swA (rest : List HostInput) : (accept rest s).swA = s.swA := rfl
@[simp] theorem accept_swEnd (rest : List HostInput) : (accept rest s).swEnd = s.swEnd := rfl
@[simp] theorem accept_swDly (rest : List HostInput) : (accept rest s).swDly = s.swDly := rfl
@[simp] theorem accept_pending (rest : List HostInput) : (accept rest s).pending = s.pending := rfl
@[simp] theorem accept_trace (rest : List HostInput) : (accept rest s).trace = s.trace := rfl
@[simp] theorem accept_responses (rest : List HostInput) : (accept rest s).responses = s.responses := rfl
@[simp] theorem accept_host (rest : List HostInput) : (accept rest s).host = rest := rfl
@[simp] theorem accept_draws (rest : List HostInput) : (accept rest s).draws = s.draws := rfl

/-! ### `drawDuty` -/

@[simp] theorem drawDuty_initMask (ch : Channel) : (drawDuty ch s).initMask = s.initMask := rfl
@[simp] theorem drawDuty_phase (ch : Channel) : (drawDuty ch s).phase = s.phase := rfl
@[simp] theorem drawDuty_swCh (ch : Channel) : (drawDuty ch s).swCh = s.swCh := rfl
@[simp] theorem drawDuty_swA (ch : Channel) : (drawDuty ch s).swA = s.swA := rfl
@[simp] theorem drawDuty_swEnd (ch : Channel) : (drawDuty ch s).swEnd = s.swEnd := rfl
@[simp] theorem drawDuty_swDly (ch : Channel) : (drawDuty ch s).swDly = s.swDly := rfl
@[simp] theorem drawDuty_pending (ch : Channel) : (drawDuty ch s).pending = s.pending := rfl
@[simp] theorem drawDuty_trace (ch : Channel) : (drawDuty ch s).trace = s.trace ++ [.writeDuty ch (freeDutyValue s.draws)] := rfl
@[simp] theorem drawDuty_responses (ch : Channel) : (drawDuty ch s).responses = s.responses := rfl
@[simp] theorem drawDuty_host (ch : Channel) : (drawDuty ch s).host = s.host := rfl
@[simp] theorem drawDuty_draws (ch : Channel) : (drawDuty ch s).draws = s.draws + 1 := rfl

/-! ### `applyReset` -/

@[simp] theorem applyReset_initMask : (applyReset s).initMask = 0 := rfl
@[simp] theorem applyReset_phase : (applyReset s).phase = .idle := rfl
@[simp] theorem applyReset_swCh : (applyReset s).swCh = 0 := rfl
@[simp] theorem applyReset_swA : (applyReset s).swA = 0 := rfl
@[simp] theorem applyReset_swEnd : (applyReset s).swEnd = 0 := rfl
@[simp] theorem applyReset_swDly : (applyReset s).swDly = 0 := rfl
@[simp] theorem applyReset_pending : (applyReset s).pending = [] := rfl
@[simp] theorem applyReset_trace : (applyReset s).trace = s.trace := rfl
@[simp] theorem applyReset_responses : (applyReset s).responses = s.responses := rfl
@[simp] theorem applyReset_host : (applyReset s).host = s.host := rfl
@[simp] theorem applyReset_draws : (applyReset s).draws = s.draws := rfl

/-! ### `latchSweep` -/

@[simp] theorem latchSweep_initMask (ch : Channel) (a b : F32Bits) (d : DelayMs) : (latchSweep ch a b d s).initMask = s.initMask := rfl
@[simp] theorem latchSweep_phase (ch : Channel) (a b : F32Bits) (d : DelayMs) : (latchSweep ch a b d s).phase = s.phase := rfl
@[simp] theorem latchSweep_swCh (ch : Channel) (a b : F32Bits) (d : DelayMs) : (latchSweep ch a b d s).swCh = ch := rfl
@[simp] theorem latchSweep_swA (ch : Channel) (a b : F32Bits) (d : DelayMs) : (latchSweep ch a b d s).swA = a := rfl
@[simp] theorem latchSweep_swEnd (ch : Channel) (a b : F32Bits) (d : DelayMs) : (latchSweep ch a b d s).swEnd = b := rfl
@[simp] theorem latchSweep_swDly (ch : Channel) (a b : F32Bits) (d : DelayMs) : (latchSweep ch a b d s).swDly = d := rfl
@[simp] theorem latchSweep_pending (ch : Channel) (a b : F32Bits) (d : DelayMs) : (latchSweep ch a b d s).pending = s.pending := rfl
@[simp] theorem latchSweep_trace (ch : Channel) (a b : F32Bits) (d : DelayMs) : (latchSweep ch a b d s).trace = s.trace := rfl
@[simp] theorem latchSweep_responses (ch : Channel) (a b : F32Bits) (d : DelayMs) : (latchSweep ch a b d s).responses = s.responses := rfl
@[simp] theorem latchSweep_host (ch : Channel) (a b : F32Bits) (d : DelayMs) : (latchSweep ch a b d s).host = s.host := rfl
@[simp] theorem latchSweep_draws (ch : Channel) (a b : F32Bits) (d : DelayMs) : (latchSweep ch a b d s).draws = s.draws := rfl

/-! ### `sleepAndAdvance` -/

@[simp] theorem sleepAndAdvance_initMask (d : Direction) : (sleepAndAdvance d s).initMask = s.initMask := rfl
@[simp] theorem sleepAndAdvance_phase (d : Direction) : (sleepAndAdvance d s).phase = s.phase := rfl
@[simp] theorem sleepAndAdvance_swCh (d : Direction) : (sleepAndAdvance d s).swCh = s.swCh := rfl
@[simp] theorem sleepAndAdvance_swA (d : Direction) : (sleepAndAdvance d s).swA = advanceAngle d s.swA := rfl
@[simp] theorem sleepAndAdvance_swEnd (d : Direction) : (sleepAndAdvance d s).swEnd = s.swEnd := rfl
@[simp] theorem sleepAndAdvance_swDly (d : Direction) : (sleepAndAdvance d s).swDly = s.swDly := rfl
@[simp] theorem sleepAndAdvance_pending (d : Direction) : (sleepAndAdvance d s).pending = sweepLoop d (advanceAngle d s.swA) s.swEnd := rfl
@[simp] theorem sleepAndAdvance_trace (d : Direction) : (sleepAndAdvance d s).trace = s.trace ++ [.sleep s.swDly] := rfl
@[simp] theorem sleepAndAdvance_responses (d : Direction) : (sleepAndAdvance d s).responses = s.responses := rfl
@[simp] theorem sleepAndAdvance_host (d : Direction) : (sleepAndAdvance d s).host = s.host := rfl
@[simp] theorem sleepAndAdvance_draws (d : Direction) : (sleepAndAdvance d s).draws = s.draws := rfl

end Sys2Proof.Machine
end

