-- ==== Sys2Proof/Laws/Ops.lean ====
section
/-! SUPPORT. What each shared operation can do, said once: validation, the two inner operations, the ways a
command ends, and the cases of a step. -/

namespace Sys2Proof.Machine

/-! ### The configuration (R4, R14) -/

@[simp] theorem config_nch : config.nch = 16 := rfl
@[simp] theorem config_k : config.k = 3289 := rfl
@[simp] theorem config_kdiv : config.kdiv = 1000 := rfl
@[simp] theorem config_clkdiv : config.clkdiv = 0x42180000#32 := rfl
@[simp] theorem config_advLo : config.advLo = 400 := rfl
@[simp] theorem config_advHi : config.advHi = 2600 := rfl
@[simp] theorem config_angleToPulse : config.angleToPulse = angleToPulse32 := rfl

theorem angleMinBits_eq : angleMinBits = 0x00000000#32 := by decide
theorem angleMaxBits_eq : angleMaxBits = 0x43340000#32 := by decide
theorem minPulseBits_eq : minPulseBits = 0x43FA0000#32 := by decide
theorem pulseSpanBits_eq : pulseSpanBits = 0x44FA0000#32 := by decide
theorem centerAngleBits_eq : centerAngleBits = 0x42B40000#32 := by decide
theorem sweepStepBits_eq : sweepStepBits = 0x3F800000#32 := by decide

theorem angleToPulse32_center : angleToPulse32 centerAngleBits = some 1500 := by decide
theorem pulseToDuty_center : pulseToDuty 1500 = 4933 := by decide

/-- A free duty value keeps the one limit on duty values (R118). -/
theorem freeDutyValue_le (n : Nat) : (freeDutyValue n).toNat ≤ 215544 := by
  have h := (Config.freeDuty n).isLt
  rw [freeDutyValue, BitVec.toNat_ofNat, Nat.mod_eq_of_lt (by omega)]
  omega

/-! ### Responses (R46) -/

/-- A response word determines its response. -/
theorem response_word_injective {r r' : Response} (h : r.word = r'.word) : r = r' := by
  obtain ⟨st, a, b⟩ := r
  obtain ⟨st', a', b'⟩ := r'
  revert h
  cases st <;> cases st' <;> cases a <;> cases a' <;> cases b <;> cases b' <;> decide

/-! ### Validation (R80) -/

theorem validate_eq_ok_iff {ch : Channel} {s : State} :
    validate ch s = .ok ↔ ch.toNat < 16 ∧ maskBit s.initMask ch = true := by
  unfold validate
  split
  · next h => simp only [config_nch] at h; simp; omega
  · next h =>
    simp only [config_nch] at h
    split <;> simp_all

theorem validate_eq_invalidChannel_iff {ch : Channel} {s : State} :
    validate ch s = .invalidChannel ↔ 16 ≤ ch.toNat := by
  unfold validate
  split
  · next h => simpa using h
  · next h => simp only [config_nch] at h; split <;> simp <;> omega

theorem validate_eq_notInitialized_iff {ch : Channel} {s : State} :
    validate ch s = .notInitialized ↔ ch.toNat < 16 ∧ maskBit s.initMask ch = false := by
  unfold validate
  split
  · next h => simp only [config_nch] at h; simp; omega
  · next h =>
    simp only [config_nch] at h
    split <;> simp_all

theorem validate_ne_illegalCommand {ch : Channel} {s : State} :
    validate ch s ≠ .illegalCommand := by
  unfold validate
  split
  · simp
  · split <;> simp

/-- Validation reads the channel and `INIT_MASK` and nothing else (R80). -/
theorem validate_congr {ch : Channel} {s t : State} (h : s.initMask = t.initMask) :
    validate ch s = validate ch t := by
  unfold validate; rw [h]

/-! ### `SetPulseOp` and `SetAngleOp` (R81, R82) -/

theorem setPulseOp_of_ok {ch : Channel} {p : PulseWidth} {s : State} (h : validate ch s = .ok) :
    setPulseOp ch p s = ⟨emit (.writeDuty ch (pulseToDuty p)) s, .ok, unusualPulse p⟩ := by
  simp [setPulseOp, h]

theorem setPulseOp_of_ne {ch : Channel} {p : PulseWidth} {s : State} (h : validate ch s ≠ .ok) :
    setPulseOp ch p s = ⟨s, validate ch s, false⟩ := by
  unfold setPulseOp
  cases hv : validate ch s <;> simp_all

theorem setAngleOp_of_ne {ch : Channel} {a : F32Bits} {s : State} (h : validate ch s ≠ .ok) :
    setAngleOp ch a s = ⟨s, validate ch s, false⟩ := by
  unfold setAngleOp
  cases hv : validate ch s <;> simp_all

theorem setAngleOp_of_some {ch : Channel} {a : F32Bits} {p : PulseWidth} {s : State}
    (h : validate ch s = .ok) (hp : angleToPulse32 a = some p) :
    setAngleOp ch a s = ⟨emit (.writeDuty ch (pulseToDuty p)) s, .ok, unusualPulse p⟩ := by
  simp [setAngleOp, h, hp, setPulseOp_of_ok h]

theorem setAngleOp_of_none {ch : Channel} {a : F32Bits} {s : State}
    (h : validate ch s = .ok) (hp : angleToPulse32 a = none) :
    setAngleOp ch a s = ⟨drawDuty ch s, .ok, false⟩ := by
  simp [setAngleOp, h, hp]

/-- Everything `SetAngleOp` can do: nothing, the write of a duty value, or the write of a free one. -/
theorem setAngleOp_cases (ch : Channel) (a : F32Bits) (s : State) :
    (validate ch s ≠ .ok ∧ setAngleOp ch a s = ⟨s, validate ch s, false⟩) ∨
    (validate ch s = .ok ∧ ∃ p, angleToPulse32 a = some p ∧
      setAngleOp ch a s = ⟨emit (.writeDuty ch (pulseToDuty p)) s, .ok, unusualPulse p⟩) ∨
    (validate ch s = .ok ∧ angleToPulse32 a = none ∧
      setAngleOp ch a s = ⟨drawDuty ch s, .ok, false⟩) := by
  by_cases h : validate ch s = .ok
  · cases hp : angleToPulse32 a with
    | some p => exact .inr (.inl ⟨h, p, rfl, setAngleOp_of_some h hp⟩)
    | none => exact .inr (.inr ⟨h, rfl, setAngleOp_of_none h hp⟩)
  · exact .inl ⟨h, setAngleOp_of_ne h⟩

/-- Everything `SetPulseOp` can do: nothing, or the write of a duty value. -/
theorem setPulseOp_cases (ch : Channel) (p : PulseWidth) (s : State) :
    (validate ch s ≠ .ok ∧ setPulseOp ch p s = ⟨s, validate ch s, false⟩) ∨
    (validate ch s = .ok ∧
      setPulseOp ch p s = ⟨emit (.writeDuty ch (pulseToDuty p)) s, .ok, unusualPulse p⟩) := by
  by_cases h : validate ch s = .ok
  · exact .inr ⟨h, setPulseOp_of_ok h⟩
  · exact .inl ⟨h, setPulseOp_of_ne h⟩

/-! ### How a command ends (R104) -/

theorem conclude_ok (s : State) (adv : Bool) :
    conclude ⟨s, .ok, adv⟩ = begin [.respond ⟨.ok, adv, false⟩] s := rfl

theorem conclude_ne {c : Status} (h : c ≠ .ok) (s : State) (adv : Bool) :
    conclude ⟨s, c, adv⟩ = raise c s := by
  cases c <;> simp_all [conclude]

/-! ### The commands -/

theorem execSetpulse_of_ok {ch : Channel} {p : PulseWidth} {s : State} (h : validate ch s = .ok) :
    execSetpulse ch p s = .next (begin [.respond ⟨.ok, unusualPulse p, false⟩]
      (emit (.writeDuty ch (pulseToDuty p)) s)) := by
  simp [execSetpulse, setPulseOp_of_ok h, conclude_ok]

theorem execSetpulse_of_ne {ch : Channel} {p : PulseWidth} {s : State} (h : validate ch s ≠ .ok) :
    execSetpulse ch p s = .next (raise (validate ch s) s) := by
  simp [execSetpulse, setPulseOp_of_ne h, conclude_ne h]

theorem execSetangle_of_some {ch : Channel} {a : F32Bits} {p : PulseWidth} {s : State}
    (h : validate ch s = .ok) (hp : angleToPulse32 a = some p) :
    execSetangle ch a s = .next (begin [.respond ⟨.ok, unusualPulse p, false⟩]
      (emit (.writeDuty ch (pulseToDuty p)) s)) := by
  simp [execSetangle, setAngleOp_of_some h hp, conclude_ok]

theorem execSetangle_of_none {ch : Channel} {a : F32Bits} {s : State}
    (h : validate ch s = .ok) (hp : angleToPulse32 a = none) :
    execSetangle ch a s = .next (begin [.respond ⟨.ok, false, false⟩] (drawDuty ch s)) := by
  simp [execSetangle, setAngleOp_of_none h hp, conclude_ok]

theorem execSetangle_of_ne {ch : Channel} {a : F32Bits} {s : State} (h : validate ch s ≠ .ok) :
    execSetangle ch a s = .next (raise (validate ch s) s) := by
  simp [execSetangle, setAngleOp_of_ne h, conclude_ne h]

theorem execSweep_of_ne {ch : Channel} {a b : F32Bits} {d : DelayMs} {s : State}
    (h : validate ch s ≠ .ok) : execSweep ch a b d s = .next (raise (validate ch s) s) := by
  unfold execSweep
  cases hv : validate ch s <;> simp_all

theorem execSweep_of_nan {ch : Channel} {a b : F32Bits} {d : DelayMs} {s : State}
    (h : validate ch s = .ok) (hn : F32.isNaN a = true ∨ F32.isNaN b = true) :
    execSweep ch a b d s = .refused .nanSweepOperand := by
  simp [execSweep, h, hn]

theorem execSweep_of_ok {ch : Channel} {a b : F32Bits} {d : DelayMs} {s : State}
    (h : validate ch s = .ok) (ha : F32.isNaN a = false) (hb : F32.isNaN b = false) :
    execSweep ch a b d s = .next (begin (sweepStart a b) (latchSweep ch a b d s)) := by
  simp [execSweep, h, ha, hb]

/-- Where a sweep starts, by the comparison of its angles (R84). -/
theorem sweepStart_eq (a b : F32Bits) :
    sweepStart a b =
      if F32.lt a b = true then [.sweepWrite, .sweepSleep .up]
      else if F32.lt b a = true then [.sweepWrite, .sweepSleep .down]
      else [.sweepFinal, .respond ⟨.ok, false, false⟩] := by
  by_cases h1 : F32.lt a b = true
  · simp [sweepStart, sweepDirection, sweepLoop, beforeEnd, h1]
  · by_cases h2 : F32.lt b a = true
    · simp [sweepStart, sweepDirection, sweepLoop, beforeEnd, h1, h2]
    · simp [sweepStart, sweepDirection, sweepEnd, h1, h2]

/-- Every way a command's meaning can answer a next state. -/
theorem exec_cases {i : Instr} {s t : State} (h : exec i s = .next t) :
    (∃ m, i = .init m ∧ t = begin (initOps m) s) ∨
    (∃ ch, i = .isinit ch ∧ t = respond ⟨.ok, false, isInitialized ch s⟩ s) ∨
    (∃ ch, ((∃ a, i = .setangle ch a) ∨ (∃ p, i = .setpulse ch p) ∨ (∃ a b d, i = .sweep ch a b d)) ∧
      validate ch s ≠ .ok ∧ t = raise (validate ch s) s) ∨
    (∃ ch a p, i = .setangle ch a ∧ validate ch s = .ok ∧ angleToPulse32 a = some p ∧
      t = begin [.respond ⟨.ok, unusualPulse p, false⟩] (emit (.writeDuty ch (pulseToDuty p)) s)) ∨
    (∃ ch a, i = .setangle ch a ∧ validate ch s = .ok ∧ angleToPulse32 a = none ∧
      t = begin [.respond ⟨.ok, false, false⟩] (drawDuty ch s)) ∨
    (∃ ch p, i = .setpulse ch p ∧ validate ch s = .ok ∧
      t = begin [.respond ⟨.ok, unusualPulse p, false⟩] (emit (.writeDuty ch (pulseToDuty p)) s)) ∨
    (∃ ch a b d, i = .sweep ch a b d ∧ validate ch s = .ok ∧ F32.isNaN a = false ∧
      F32.isNaN b = false ∧
      t = begin (sweepStart a b) (latchSweep ch a b d s)) := by
  cases i with
  | init m => left; exact ⟨m, rfl, by simpa [exec, execInit] using h.symm⟩
  | isinit ch => right; left; exact ⟨ch, rfl, by simpa [exec, execIsinit] using h.symm⟩
  | setangle ch a =>
    simp only [exec] at h
    by_cases hv : validate ch s = .ok
    · cases hp : angleToPulse32 a with
      | some p =>
        rw [execSetangle_of_some hv hp] at h
        right; right; right; left
        exact ⟨ch, a, p, rfl, hv, hp, by simpa using h.symm⟩
      | none =>
        rw [execSetangle_of_none hv hp] at h
        right; right; right; right; left
        exact ⟨ch, a, rfl, hv, hp, by simpa using h.symm⟩
    · rw [execSetangle_of_ne hv] at h
      right; right; left
      exact ⟨ch, .inl ⟨a, rfl⟩, hv, by simpa using h.symm⟩
  | setpulse ch p =>
    simp only [exec] at h
    by_cases hv : validate ch s = .ok
    · rw [execSetpulse_of_ok hv] at h
      right; right; right; right; right; left
      exact ⟨ch, p, rfl, hv, by simpa using h.symm⟩
    · rw [execSetpulse_of_ne hv] at h
      right; right; left
      exact ⟨ch, .inr (.inl ⟨p, rfl⟩), hv, by simpa using h.symm⟩
  | sweep ch a b d =>
    simp only [exec] at h
    by_cases hv : validate ch s = .ok
    · by_cases hn : F32.isNaN a = true ∨ F32.isNaN b = true
      · rw [execSweep_of_nan hv hn] at h; cases h
      · simp only [not_or, Bool.not_eq_true] at hn
        rw [execSweep_of_ok hv hn.1 hn.2] at h
        right; right; right; right; right; right
        exact ⟨ch, a, b, d, rfl, hv, hn.1, hn.2, by simpa using h.symm⟩
    · rw [execSweep_of_ne hv] at h
      right; right; left
      exact ⟨ch, .inr (.inr ⟨a, b, d, rfl⟩), hv, by simpa using h.symm⟩

/-! ### A step -/

theorem advance_cons {s : State} {op : MicroOp} {rest : List MicroOp} (h : s.pending = op :: rest) :
    advance s = .next (runOp op { s with pending := rest }) := by
  unfold advance; rw [h]

/-- Every way a step can answer a next state. -/
theorem step_cases {s t : State} (h : step s = .next t) :
    (∃ rest, s.host = .reset :: rest ∧ t = applyReset { s with host := rest }) ∨
    (∃ host, (s.host = host ∨ s.host = .wait :: host) ∧ s.phase = .idle ∧
      t = { s with host := host }) ∨
    (∃ host op rest, (s.host = host ∨ s.host = .wait :: host) ∧ s.phase = .busy ∧
      s.pending = op :: rest ∧ t = runOp op { s with host := host, pending := rest }) ∨
    (∃ w rest i, s.host = .present w :: rest ∧ s.phase = .idle ∧ decode w = .ok i ∧
      exec i (accept rest s) = .next t) ∨
    (∃ w rest e, s.host = .present w :: rest ∧ s.phase = .idle ∧ decode w = .error e ∧
      t = raise .illegalCommand (accept rest s)) := by
  obtain ⟨m, ph, c, a, b, d, pend, tr, rs, host, dr⟩ := s
  have busy : ∀ host' : List HostInput, advance ⟨m, .busy, c, a, b, d, pend, tr, rs, host', dr⟩ = .next t →
      ∃ op rest, pend = op :: rest ∧
        t = runOp op ⟨m, .busy, c, a, b, d, rest, tr, rs, host', dr⟩ := by
    intro host' hb
    cases pend with
    | nil => simp [advance] at hb
    | cons op rest => exact ⟨op, rest, rfl, by simpa [advance] using hb.symm⟩
  cases host with
  | nil =>
    cases ph with
    | idle =>
      right; left
      exact ⟨[], .inl rfl, rfl, by simpa [step, stepBlock, tick] using h.symm⟩
    | busy =>
      obtain ⟨op, rest, hp, ht⟩ := busy [] (by simpa [step, stepBlock, tick] using h)
      right; right; left
      exact ⟨[], op, rest, .inl rfl, rfl, hp, ht⟩
  | cons x rest =>
    cases x with
    | reset =>
      left
      exact ⟨rest, rfl, by simpa [step, stepBlock] using h.symm⟩
    | wait =>
      cases ph with
      | idle =>
        right; left
        exact ⟨rest, .inr rfl, rfl, by simpa [step, stepBlock, tick] using h.symm⟩
      | busy =>
        obtain ⟨op, rs', hp, ht⟩ := busy rest (by simpa [step, stepBlock, tick] using h)
        right; right; left
        exact ⟨rest, op, rs', .inr rfl, rfl, hp, ht⟩
    | present w =>
      cases ph with
      | idle =>
        right; right; right
        simp only [step, stepBlock, acceptWord] at h
        cases hd : decode w with
        | ok i =>
          rw [hd] at h
          exact .inl ⟨w, rest, i, rfl, rfl, hd, h⟩
        | error e =>
          rw [hd] at h
          exact .inr ⟨w, rest, e, rfl, rfl, hd, by simpa using h.symm⟩
      | busy =>
        obtain ⟨op, rs', hp, ht⟩ := busy (.present w :: rest) (by simpa [step, stepBlock] using h)
        right; right; left
        exact ⟨.present w :: rest, op, rs', .inl rfl, rfl, hp, ht⟩

end Sys2Proof.Machine
end

