-- ==== Sys2Proof/Laws/Conversion.lean ====
section
/-! SUPPORT. The angle path as arithmetic on magnitudes (spec/41_conversion.md R66, R67): where the clamp puts an
angle, and the pulse width as a monotone function of that place. -/

namespace Sys2Proof.Machine

open F32

/-! ### Where an angle lies -/

theorem isNaN_iff {a : F32Bits} : isNaN a = true ↔ ofBits a = .nan := by
  simp [isNaN]

theorem isNaN_eq_false_iff {a : F32Bits} : isNaN a = false ↔ ∃ p, position (ofBits a) = some p := by
  unfold isNaN
  cases h : ofBits a <;> simp [position]

theorem position_eq_none_iff {a : F32Bits} : position (ofBits a) = none ↔ isNaN a = true := by
  unfold isNaN
  cases h : ofBits a <;> simp [position]

theorem lt_iff {a b : F32Bits} {x y : Int} (ha : position (ofBits a) = some x)
    (hb : position (ofBits b) = some y) : lt a b = true ↔ x < y := by
  simp [lt, ltVal, ha, hb]

theorem lt_eq_false_of_nan_left {a b : F32Bits} (h : isNaN a = true) : lt a b = false := by
  simp [lt, ltVal, position_eq_none_iff.2 h]

theorem lt_eq_false_of_nan_right {a b : F32Bits} (h : isNaN b = true) : lt a b = false := by
  unfold lt ltVal
  rw [position_eq_none_iff.2 h]
  cases position (ofBits a) <;> rfl

theorem ofBits_zero : ofBits angleMinBits = .fin false 0 := by decide
theorem ofBits_180 : ofBits angleMaxBits = .fin false (180 * one) := by decide
theorem ofBits_500 : ofBits minPulseBits = .fin false (500 * one) := by decide
theorem ofBits_2000 : ofBits pulseSpanBits = .fin false (2000 * one) := by decide
theorem ofBits_step : ofBits sweepStepBits = .fin false one := by decide

theorem signed_bounds (neg : Bool) (mag : Nat) :
    -(mag : Int) ≤ signed neg mag ∧ signed neg mag ≤ mag := by
  cases neg <;> simp [signed]

/-- Where the clamp puts an angle that is no NaN: between 0 and 180, with a minus sign only on a zero (R66). -/
theorem clamp_cases {a : F32Bits} {p : Int} (h : position (ofBits a) = some p) :
    ∃ neg mag, ofBits (clamp a) = .fin neg mag ∧ mag ≤ 180 * one ∧ (neg = true → mag = 0) ∧
      (mag : Int) = max 0 (min p (180 * one : Nat)) := by
  have h0 : position (ofBits angleMinBits) = some 0 := by rw [ofBits_zero]; rfl
  have h180 : position (ofBits angleMaxBits) = some ((180 * one : Nat) : Int) := by
    rw [ofBits_180]; rfl
  unfold clamp
  split
  · next hl =>
    rw [lt_iff h h0] at hl
    exact ⟨false, 0, ofBits_zero, by omega, by simp, by omega⟩
  · next hl =>
    rw [lt_iff h h0] at hl
    split
    · next hu =>
      rw [lt_iff h180 h] at hu
      exact ⟨false, 180 * one, ofBits_180, le_rfl, by simp, by omega⟩
    · next hu =>
      rw [lt_iff h180 h] at hu
      cases hv : ofBits a with
      | nan => rw [hv] at h; cases h
      | inf neg =>
        rw [hv] at h
        have hlim : (180 * one : Nat) < limit := by decide
        have hp : signed neg limit = p := by simpa [position] using h
        cases neg <;> simp [signed] at hp <;> omega
      | fin neg mag =>
        rw [hv] at h
        have hp : signed neg mag = p := by simpa [position] using h
        refine ⟨neg, mag, rfl, ?_, ?_, ?_⟩ <;> cases neg <;> simp [signed] at hp ⊢ <;> omega

/-! ### The pulse width of a clamped magnitude -/

/-- `t3` of R67, in units, for a clamped magnitude. -/
def interpolatedMag (mag : Nat) : Nat :=
  roundMag (500 * one + roundMag (roundMag (mag * one) (180 * one) * (2000 * one)) one) 1

theorem representable_natCast {k : Nat} (h : k < 2 ^ 24) : Representable (k * one) :=
  ⟨k, 149, h, rfl⟩

theorem quotient_le {mag : Nat} (h : mag ≤ 180 * one) : roundMag (mag * one) (180 * one) ≤ one := by
  have hp := unit_pos
  have h1 : mag * one ≤ one * (180 * one) := by
    rw [Nat.mul_comm one]; exact Nat.mul_le_mul_right _ h
  refine (roundMag_mono h1 (by omega)).trans ?_
  rw [roundMag_of_representable (by omega) (by simpa using representable_natCast (k := 1) (by decide))]

theorem product_le {m : Nat} (h : m ≤ one) : roundMag (m * (2000 * one)) one ≤ 2000 * one := by
  have h1 : m * (2000 * one) ≤ 2000 * one * one := by
    rw [Nat.mul_comm (2000 * one)]; exact Nat.mul_le_mul_right _ h
  refine (roundMag_mono h1 unit_pos).trans ?_
  rw [roundMag_of_representable unit_pos (representable_natCast (by decide))]

theorem interpolatedMag_mono {m m' : Nat} (h : m ≤ m') : interpolatedMag m ≤ interpolatedMag m' := by
  have hp := unit_pos
  unfold interpolatedMag
  refine roundMag_mono (Nat.add_le_add_left ?_ _) (by decide)
  refine roundMag_mono (Nat.mul_le_mul_right _ ?_) unit_pos
  exact roundMag_mono (Nat.mul_le_mul_right _ h) (by omega)

theorem interpolatedMag_zero : interpolatedMag 0 = 500 * one := by decide
theorem interpolatedMag_180 : interpolatedMag (180 * one) = 2500 * one := by decide

theorem interpolatedMag_bounds {m : Nat} (h : m ≤ 180 * one) :
    500 * one ≤ interpolatedMag m ∧ interpolatedMag m ≤ 2500 * one := by
  rw [← interpolatedMag_zero, ← interpolatedMag_180]
  exact ⟨interpolatedMag_mono (Nat.zero_le _), interpolatedMag_mono h⟩

theorem finish_of_lt {neg : Bool} {m : Nat} (h : m < limit) : finish neg m = .fin neg m := by
  simp [finish, h]

theorem small_lt_limit {m : Nat} (h : m ≤ 2500 * one) : m < limit :=
  h.trans_lt (by decide)

/-- The interpolation of R67 on a clamped angle is `interpolatedMag` of its magnitude. -/
theorem interpolate_eq {a : F32Bits} {neg : Bool} {mag : Nat} (h : ofBits (clamp a) = .fin neg mag)
    (hle : mag ≤ 180 * one) (hneg : neg = true → mag = 0) :
    ofBits (interpolate a) = .fin false (interpolatedMag mag) := by
  have hp := unit_pos
  have hq := quotient_le hle
  have hm := product_le hq
  have e1 : ofBits (div (clamp a) angleMaxBits) = .fin neg (roundMag (mag * one) (180 * one)) := by
    have h180 : (180 * one) ≠ 0 := by omega
    unfold div
    rw [h, ofBits_180]
    simp only [divVal, h180, if_false, Bool.bne_false]
    rw [ofBits_toBits_finish, finish_of_lt (small_lt_limit (by omega))]
  have e2 : ofBits (mul (div (clamp a) angleMaxBits) pulseSpanBits) =
      .fin neg (roundMag (roundMag (mag * one) (180 * one) * (2000 * one)) one) := by
    unfold mul
    rw [e1, ofBits_2000]
    simp only [mulVal, Bool.bne_false]
    rw [ofBits_toBits_finish, finish_of_lt (small_lt_limit (by omega))]
  have hs : ∀ m, (neg = true → m = 0) → signed neg m = (m : Int) := by
    intro m hz
    cases neg
    · rfl
    · simp [hz rfl, signed]
  have hz : neg = true → roundMag (roundMag (mag * one) (180 * one) * (2000 * one)) one = 0 := by
    intro hn
    rw [hneg hn]
    decide
  have hb := interpolatedMag_bounds hle
  unfold interpolate add
  rw [e2, ofBits_500]
  simp only [addVal, hs _ hz]
  have hpos : (signed false (500 * one) +
      (roundMag (roundMag (mag * one) (180 * one) * (2000 * one)) one : Int)) =
      ((500 * one + roundMag (roundMag (mag * one) (180 * one) * (2000 * one)) one : Nat) : Int) := by
    simp [signed]
  rw [hpos, if_neg (by omega), Int.natAbs_natCast, ofBits_toBits_finish]
  have : decide (((500 * one + roundMag (roundMag (mag * one) (180 * one) * (2000 * one)) one : Nat) : Int) < 0)
      = false := by simp; omega
  rw [this]
  exact finish_of_lt (small_lt_limit hb.2)

/-- The pulse width of an angle that is no NaN (R67). -/
theorem angleToPulse32_eq {a : F32Bits} {neg : Bool} {mag : Nat} (h : ofBits (clamp a) = .fin neg mag)
    (hle : mag ≤ 180 * one) (hneg : neg = true → mag = 0) :
    angleToPulse32 a = some (BitVec.ofNat 16 (interpolatedMag mag / one)) := by
  unfold angleToPulse32 trunc
  rw [interpolate_eq h hle hneg]
  simp only [truncVal, signed, Bool.false_eq_true, if_false, Option.map_some]
  rw [BitVec.ofInt_natCast]

/-- A NaN passes the clamp and every operation, and has no pulse width (R69). -/
theorem angleToPulse32_of_nan {a : F32Bits} (h : isNaN a = true) : angleToPulse32 a = none := by
  have hc : clamp a = a := by
    unfold clamp
    rw [lt_eq_false_of_nan_left h, lt_eq_false_of_nan_right h]
    rfl
  have hn := isNaN_iff.1 h
  have e : ofBits (toBits .nan) = .nan := by decide
  unfold angleToPulse32 trunc interpolate add mul div
  rw [hc, hn, ofBits_180, ofBits_2000, ofBits_500]
  simp only [divVal, e, mulVal, addVal, truncVal, Option.map_none]

end Sys2Proof.Machine
end

