-- ==== Sys2Proof/Laws/Decode.lean ====
section
/-! SUPPORT. The fields of a word, and a word from its fields (spec/30_encoding.md R40). -/

namespace Sys2Proof

variable (op ch : BitVec 8) (h : BitVec 16) (w0 w1 w2 : BitVec 32)

theorem commandWord_toNat :
    (commandWord op ch h w0 w1 w2).toNat =
      op.toNat + 2 ^ 8 * ch.toNat + 2 ^ 16 * h.toNat + 2 ^ 32 * w0.toNat + 2 ^ 64 * w1.toNat +
        2 ^ 96 * w2.toNat := by
  have key : ∀ {n m : Nat} (x : BitVec n) (y : BitVec m), (x ++ y).toNat = y.toNat + 2 ^ m * x.toNat := by
    intro n m x y
    rw [BitVec.toNat_append, Nat.shiftLeft_eq, Nat.or_comm, Nat.mul_comm]
    rw [Nat.or_comm, ← Nat.two_pow_add_eq_or_of_lt y.isLt]
    omega
  have : commandWord op ch h w0 w1 w2 = (w2 ++ w1 ++ w0 ++ h ++ ch ++ op : BitVec (32 + 32 + 32 + 16 + 8 + 8)) := rfl
  rw [this]
  simp only [key]
  ring

@[simp] theorem fieldOp_commandWord : fieldOp (commandWord op ch h w0 w1 w2) = op := by
  apply BitVec.eq_of_toNat_eq
  simp only [fieldOp, BitVec.extractLsb'_toNat, Nat.shiftRight_eq_div_pow, commandWord_toNat]
  omega

@[simp] theorem fieldCh_commandWord : fieldCh (commandWord op ch h w0 w1 w2) = ch := by
  apply BitVec.eq_of_toNat_eq
  simp only [fieldCh, BitVec.extractLsb'_toNat, Nat.shiftRight_eq_div_pow, commandWord_toNat]
  omega

@[simp] theorem fieldH_commandWord : fieldH (commandWord op ch h w0 w1 w2) = h := by
  apply BitVec.eq_of_toNat_eq
  simp only [fieldH, BitVec.extractLsb'_toNat, Nat.shiftRight_eq_div_pow, commandWord_toNat]
  omega

@[simp] theorem fieldW0_commandWord : fieldW0 (commandWord op ch h w0 w1 w2) = w0 := by
  apply BitVec.eq_of_toNat_eq
  simp only [fieldW0, BitVec.extractLsb'_toNat, Nat.shiftRight_eq_div_pow, commandWord_toNat]
  omega

@[simp] theorem fieldW1_commandWord : fieldW1 (commandWord op ch h w0 w1 w2) = w1 := by
  apply BitVec.eq_of_toNat_eq
  simp only [fieldW1, BitVec.extractLsb'_toNat, Nat.shiftRight_eq_div_pow, commandWord_toNat]
  omega

@[simp] theorem fieldW2_commandWord : fieldW2 (commandWord op ch h w0 w1 w2) = w2 := by
  apply BitVec.eq_of_toNat_eq
  simp only [fieldW2, BitVec.extractLsb'_toNat, Nat.shiftRight_eq_div_pow, commandWord_toNat]
  omega

/-- A word is the concatenation of its fields. -/
theorem commandWord_fields (w : CommandWord) :
    commandWord (fieldOp w) (fieldCh w) (fieldH w) (fieldW0 w) (fieldW1 w) (fieldW2 w) = w := by
  apply BitVec.eq_of_toNat_eq
  have := w.isLt
  simp only [commandWord_toNat, fieldOp, fieldCh, fieldH, fieldW0, fieldW1, fieldW2,
    BitVec.extractLsb'_toNat, Nat.shiftRight_eq_div_pow]
  omega

/-- Fields go into a word without loss. -/
theorem commandWord_inj {op op' ch ch' : BitVec 8} {h h' : BitVec 16} {w0 w0' w1 w1' w2 w2' : BitVec 32} :
    commandWord op ch h w0 w1 w2 = commandWord op' ch' h' w0' w1' w2' ↔
      op = op' ∧ ch = ch' ∧ h = h' ∧ w0 = w0' ∧ w1 = w1' ∧ w2 = w2' := by
  constructor
  · intro e
    exact ⟨by simpa using congrArg fieldOp e, by simpa using congrArg fieldCh e,
      by simpa using congrArg fieldH e, by simpa using congrArg fieldW0 e,
      by simpa using congrArg fieldW1 e, by simpa using congrArg fieldW2 e⟩
  · rintro ⟨rfl, rfl, rfl, rfl, rfl, rfl⟩; rfl

/-- A word masked is its fields masked (R42's match and mask). -/
theorem commandWord_and (op op' ch ch' : BitVec 8) (h h' : BitVec 16) (w0 w0' w1 w1' w2 w2' : BitVec 32) :
    commandWord op ch h w0 w1 w2 &&& commandWord op' ch' h' w0' w1' w2' =
      commandWord (op &&& op') (ch &&& ch') (h &&& h') (w0 &&& w0') (w1 &&& w1') (w2 &&& w2') := by
  have key : ∀ {n m : Nat} (a b : BitVec n) (x y : BitVec m), (a ++ x) &&& (b ++ y) = (a &&& b) ++ (x &&& y) := by
    intro n m a b x y
    ext i hi
    simp only [BitVec.getElem_and, BitVec.getElem_append]
    split <;> simp
  have e : ∀ (o c : BitVec 8) (k : BitVec 16) (a b d : BitVec 32), commandWord o c k a b d =
      (d ++ b ++ a ++ k ++ c ++ o : BitVec (32 + 32 + 32 + 16 + 8 + 8)) := fun _ _ _ _ _ _ => rfl
  rw [e, e, e]
  simp only [← key]

end Sys2Proof
end

