-- ==== Sys2Proof/Laws/Run.lean ====
section
/-! SUPPORT. Running some steps: composition, one step of a busy block whose host does not interfere, and the
micro-operations one by one. -/

namespace Sys2Proof.Machine

@[simp] theorem runs_zero {s t : State} : Runs 0 s t ↔ s = t := by
  unfold Runs
  constructor
  · intro h; exact Host.Outcome.next.inj h
  · rintro rfl; rfl

theorem core_run_succ_of_next (M : Host.Core) (n : Nat) {s t : M.State} (h : M.step s = .next t) :
    M.run (n + 1) s = M.run n t := by
  rw [Host.Core.run, h]

theorem core_run_succ_next (M : Host.Core) (n : Nat) {s u : M.State} (h : M.run (n + 1) s = .next u) :
    ∃ t, M.step s = .next t ∧ M.run n t = .next u := by
  rw [Host.Core.run] at h
  split at h
  · next t ht => exact ⟨t, ht, h⟩
  · cases h
  · cases h

theorem runs_succ_iff {n : Nat} {s u : State} :
    Runs (n + 1) s u ↔ ∃ t, step s = .next t ∧ Runs n t u := by
  constructor
  · exact core_run_succ_next Sys2Proof.core n
  · rintro ⟨t, ht, hr⟩
    exact (core_run_succ_of_next Sys2Proof.core n ht).trans hr

theorem runs_one_iff {s t : State} : Runs 1 s t ↔ step s = .next t := by
  rw [show (1 : Nat) = 0 + 1 from rfl, runs_succ_iff]
  simp

theorem Runs.trans {n m : Nat} {s t u : State} (h : Runs n s t) (h' : Runs m t u) :
    Runs (n + m) s u := by
  induction n generalizing s with
  | zero => simp only [runs_zero] at h; subst h; simpa using h'
  | succ n ih =>
    obtain ⟨a, ha, hr⟩ := runs_succ_iff.1 h
    rw [show n + 1 + m = n + m + 1 by omega]
    exact runs_succ_iff.2 ⟨a, ha, ih hr⟩

/-- The step of a busy block whose host does not interfere is its next micro-operation. -/
theorem step_of_quiet {s : State} {op : MicroOp} {rest : List MicroOp} (hq : Quiet s)
    (hb : s.phase = .busy) (hp : s.pending = op :: rest) :
    step s = .next (runOp op { s with pending := rest }) := by
  rcases hq with h | ⟨w, r, h⟩
  · simp [step, stepBlock, h, tick, hb, advance_cons hp]
  · simp [step, stepBlock, h, hb, advance_cons hp]

/-- The operations read nothing of the host, and leave it. -/
theorem setAngleOp_host (ch : Channel) (a : F32Bits) (s : State) (h : List HostInput) :
    (setAngleOp ch a { s with host := h }).state =
      { (setAngleOp ch a s).state with host := h } := by
  have hv : validate ch { s with host := h } = validate ch s := validate_congr rfl
  rcases setAngleOp_cases ch a s with ⟨hn, e⟩ | ⟨hn, p, hp, e⟩ | ⟨hn, hp, e⟩
  · rw [e, setAngleOp_of_ne (by rwa [hv])]
  · rw [e, setAngleOp_of_some (by rwa [hv]) hp]; rfl
  · rw [e, setAngleOp_of_none (by rwa [hv]) hp]; rfl

theorem runOp_host (op : MicroOp) (s : State) (h : List HostInput) :
    runOp op { s with host := h } = { runOp op s with host := h } := by
  cases op <;> first | rfl | exact setAngleOp_host _ _ _ _

/-- What the inner `SetAngleOp` leaves alone: everything but the trace and the counter of free values. -/
theorem setAngleOp_frame (ch : Channel) (a : F32Bits) (s : State) :
    (setAngleOp ch a s).state =
      { s with
        trace := (setAngleOp ch a s).state.trace
        draws := (setAngleOp ch a s).state.draws } := by
  rcases setAngleOp_cases ch a s with ⟨_, e⟩ | ⟨_, p, _, e⟩ | ⟨_, _, e⟩ <;> rw [e] <;> rfl

theorem setAngleOp_trace (ch : Channel) (a : F32Bits) (s : State) :
    (setAngleOp ch a s).state.trace = s.trace ∨
      ∃ v, (setAngleOp ch a s).state.trace = s.trace ++ [.writeDuty ch v] := by
  rcases setAngleOp_cases ch a s with ⟨_, e⟩ | ⟨_, p, _, e⟩ | ⟨_, _, e⟩ <;> rw [e]
  · exact .inl rfl
  · exact .inr ⟨_, rfl⟩
  · exact .inr ⟨_, rfl⟩

end Sys2Proof.Machine
end

