-- ==== Sys2Proof/Laws/Invariant.lean ====
section
/-! SUPPORT. Small lemmas about the definitions of Safety: traces the backend may be sent, the channels of a
mask, the events of `INIT` phase 1. -/

namespace Sys2Proof.Machine

/-! ### `TraceOk` (R118) -/

theorem traceOk_nil : TraceOk [] := by
  intro before e after h
  simp at h

/-- What was sent before was in order too. -/
theorem TraceOk.of_append {a b : List Event} (h : TraceOk (a ++ b)) : TraceOk a := by
  intro before e after he
  exact h before e (after ++ b) (by rw [he]; simp)

/-- One more event, in order where it stands, keeps a trace in order. -/
theorem TraceOk.snoc {a : List Event} {e : Event} (h : TraceOk a) (he : EventOk a e) :
    TraceOk (a ++ [e]) := by
  intro before x after hx
  rcases List.eq_nil_or_concat after with rfl | ⟨after', y, rfl⟩
  · obtain ⟨h1, h2⟩ := List.append_inj' hx rfl
    subst h1
    cases h2
    exact he
  · have hxy : a ++ [e] = (before ++ x :: after') ++ [y] := by rw [hx]; simp
    exact h before x after' (List.append_inj' hxy rfl).1

/-! ### Channels of a mask, and `INIT` phase 1 (R55) -/

theorem mem_channelsOf {m : ChannelMask} {c : Channel} :
    c ∈ channelsOf m ↔ c.toNat < 16 ∧ maskBit m c = true := by
  simp only [channelsOf, List.mem_filter, List.mem_map, List.mem_range, config_nch]
  constructor
  · rintro ⟨⟨k, hk, rfl⟩, h⟩
    refine ⟨?_, h⟩
    rw [BitVec.toNat_ofNat]
    omega
  · rintro ⟨h, h'⟩
    exact ⟨⟨c.toNat, h, by simp⟩, h'⟩

/-- The three events of one channel. -/
def configureEvents (c : Channel) : List Event :=
  [.bind c (Config.sliceOf c), .configure (Config.sliceOf c) config.clkdiv, .enable (Config.sliceOf c)]

@[simp] theorem pendingEvents_append (a b : List MicroOp) :
    pendingEvents (a ++ b) = pendingEvents a ++ pendingEvents b := List.filterMap_append ..

@[simp] theorem pendingEvents_cons_bind (c : Channel) (ops : List MicroOp) :
    pendingEvents (.bind c :: ops) = .bind c (Config.sliceOf c) :: pendingEvents ops := rfl

@[simp] theorem pendingEvents_cons_configure (c : Channel) (ops : List MicroOp) :
    pendingEvents (.configure c :: ops) =
      .configure (Config.sliceOf c) config.clkdiv :: pendingEvents ops := rfl

@[simp] theorem pendingEvents_cons_enable (c : Channel) (ops : List MicroOp) :
    pendingEvents (.enable c :: ops) = .enable (Config.sliceOf c) :: pendingEvents ops := rfl

theorem pendingEvents_flatMap_configureOps (cs : List Channel) :
    pendingEvents (cs.flatMap configureOps) = cs.flatMap configureEvents := by
  induction cs with
  | nil => rfl
  | cons c cs ih => rw [List.flatMap_cons, pendingEvents_append, ih]; rfl

theorem pendingEvents_map_centre (cs : List Channel) : pendingEvents (cs.map .centre) = [] := by
  induction cs with
  | nil => rfl
  | cons c cs ih => exact ih

/-- Phase 1 of `INIT(MASK)` issues three events for each channel of the mask. -/
theorem pendingEvents_initOps (m : ChannelMask) :
    pendingEvents (initOps m) = (channelsOf m).flatMap configureEvents := by
  unfold initOps
  simp only [pendingEvents_append, pendingEvents_flatMap_configureOps, pendingEvents_map_centre]
  simp [pendingEvents, phase1Event]

/-- Once phase 1 is over, every channel of the mask is armed. -/
theorem armed_of_phase1 {m : ChannelMask} {c : Channel} (tr : List Event) (h : c ∈ channelsOf m) :
    armed c (tr ++ pendingEvents (initOps m)) := by
  rw [pendingEvents_initOps]
  refine ⟨List.mem_append_right _ ?_, List.mem_append_right _ ?_, List.mem_append_right _ ?_⟩ <;>
    exact List.mem_flatMap.2 ⟨c, h, by simp [configureEvents]⟩

/-- Phase 1 keeps a trace in order. -/
theorem traceOk_phase1 {cs : List Channel} (hc : ∀ c ∈ cs, c.toNat < 16) {tr : List Event}
    (h : TraceOk tr) : TraceOk (tr ++ cs.flatMap configureEvents) := by
  induction cs generalizing tr with
  | nil => simpa using h
  | cons c cs ih =>
    have h1 := h.snoc (e := .bind c (Config.sliceOf c)) ⟨hc c (by simp), rfl⟩
    have h2 := h1.snoc (e := .configure (Config.sliceOf c) config.clkdiv) ⟨rfl, c, tr, rfl⟩
    have h3 := h2.snoc (e := .enable (Config.sliceOf c)) ⟨c, tr, by simp⟩
    have h4 := ih (fun x hx => hc x (by simp [hx])) h3
    rw [List.flatMap_cons, configureEvents, ← List.append_assoc]
    simpa [configureEvents] using h4

end Sys2Proof.Machine
end

