-- ==== Sys2Proof/Laws/PerInstr.lean ====
section
/-! SUPPORT. The per-instruction family `Layout`: where each command's word holds what (spec/30_encoding.md R40,
R42, R43). -/

namespace Sys2Proof.Laws.Layout

/-- The word of a command holds its opcode and its operands in their fields, and zero in every field the command
does not use. -/
def Statement (i : Instr) : Prop :=
  i.wellFormed = true ∧
  match i with
  | .init mask =>
    fieldOp (encode i) = 0x01 ∧ fieldH (encode i) = mask ∧
    fieldCh (encode i) = 0 ∧ fieldW0 (encode i) = 0 ∧ fieldW1 (encode i) = 0 ∧ fieldW2 (encode i) = 0
  | .isinit ch =>
    fieldOp (encode i) = 0x02 ∧ fieldCh (encode i) = ch ∧
    fieldH (encode i) = 0 ∧ fieldW0 (encode i) = 0 ∧ fieldW1 (encode i) = 0 ∧ fieldW2 (encode i) = 0
  | .setangle ch angle =>
    fieldOp (encode i) = 0x03 ∧ fieldCh (encode i) = ch ∧ fieldW0 (encode i) = angle ∧
    fieldH (encode i) = 0 ∧ fieldW1 (encode i) = 0 ∧ fieldW2 (encode i) = 0
  | .setpulse ch pulse =>
    fieldOp (encode i) = 0x04 ∧ fieldCh (encode i) = ch ∧ fieldH (encode i) = pulse ∧
    fieldW0 (encode i) = 0 ∧ fieldW1 (encode i) = 0 ∧ fieldW2 (encode i) = 0
  | .sweep ch start stop delay =>
    fieldOp (encode i) = 0x05 ∧ fieldCh (encode i) = ch ∧ fieldW0 (encode i) = start ∧
    fieldW1 (encode i) = stop ∧ fieldW2 (encode i) = delay ∧ fieldH (encode i) = 0

theorem init (mask : ChannelMask) : Statement (.init mask) := by
  simp [Statement, Instr.wellFormed, encode]

theorem isinit (ch : Channel) : Statement (.isinit ch) := by
  simp [Statement, Instr.wellFormed, encode]

theorem setangle (ch : Channel) (angle : F32Bits) : Statement (.setangle ch angle) := by
  simp [Statement, Instr.wellFormed, encode]

theorem setpulse (ch : Channel) (pulse : PulseWidth) : Statement (.setpulse ch pulse) := by
  simp [Statement, Instr.wellFormed, encode]

theorem sweep (ch : Channel) (start stop : F32Bits) (delay : DelayMs) :
    Statement (.sweep ch start stop delay) := by
  simp [Statement, Instr.wellFormed, encode]

end Sys2Proof.Laws.Layout
end

