-- ==== Sys2Proof/Tests/Slice0.lean ====
section
/-! SUPPORT. Tests: expected results are the vectors of spec/95_test_vectors.md (named by their ids) or hand
calculation from the rules; and a witness for the hypotheses of every statement that has some. -/

namespace Sys2Proof.Tests

open Sys2Proof.Machine

/-- Right after reset but for `INIT_MASK`. -/
def withMask (m : ChannelMask) : State := { State.reset with initMask := m }

/-- `s` with a word presented. -/
def presenting (w : CommandWord) (s : State) : State := { s with host := [.present w] }

/-- The next state of an outcome. -/
def nextOf : Host.Outcome State Fault Refusal → Option State
  | .next s => some s
  | .fault _ => none
  | .refused _ => none

/-- A field of the state after some steps. -/
def after {α : Type} (n : Nat) (s : State) (f : State → α) : Option α :=
  (nextOf (Sys2Proof.core.run n s)).map f

/-! ### Well-formedness: one ill-formed call for each check -/

theorem test_wf_mask : Call.wellFormed constants (.init 65536) = false := by decide
theorem test_wf_isInitialized_channel : Call.wellFormed constants (.isInitialized 256) = false := by decide
theorem test_wf_setAngle_channel :
    Call.wellFormed constants (.setAngle 256 ⟨false, 90, 1⟩) = false := by decide
theorem test_wf_setAngle_angle : Call.wellFormed constants (.setAngle 0 ⟨false, 90, 0⟩) = false := by decide
theorem test_wf_setPulse_channel : Call.wellFormed constants (.setPulseUs 256 1500) = false := by decide
theorem test_wf_setPulse_pulse : Call.wellFormed constants (.setPulseUs 0 65536) = false := by decide
theorem test_wf_sweep_channel :
    Call.wellFormed constants (.sweep 256 ⟨false, 0, 1⟩ ⟨false, 5, 1⟩ 10) = false := by decide
theorem test_wf_sweep_start :
    Call.wellFormed constants (.sweep 3 ⟨false, 0, 0⟩ ⟨false, 5, 1⟩ 10) = false := by decide
theorem test_wf_sweep_end :
    Call.wellFormed constants (.sweep 3 ⟨false, 0, 1⟩ ⟨false, 5, 0⟩ 10) = false := by decide
theorem test_wf_sweep_delay :
    Call.wellFormed constants (.sweep 3 ⟨false, 0, 1⟩ ⟨false, 5, 1⟩ 4294967296) = false := by decide
theorem test_wf_good :
    Call.wellFormed constants (.sweep 255 ⟨false, 0, 1⟩ ⟨false, 5, 1⟩ 4294967295) = true := by decide

/-! ### Decoding: words written out from R40 and R42 -/

/-- M5, `init(CH15)`. -/
theorem test_decode_init : decode 0x00000000000000000000000080000001 = .ok (.init 0x8000) := by decide
/-- M8, `is_initialized(16)`. -/
theorem test_decode_isinit : decode 0x00000000000000000000000000001002 = .ok (.isinit 16) := by decide
/-- V17, `set_angle(1, -10)`. -/
theorem test_decode_setangle :
    decode 0x0000000000000000C120000000000103 = .ok (.setangle 1 0xC1200000) := by decide
/-- V11, `set_pulse_us(16, 1500)`. -/
theorem test_decode_setpulse :
    decode 0x00000000000000000000000005DC1004 = .ok (.setpulse 16 1500) := by decide
/-- P3 line 3, `sweep(3, 5, 2.5, 0)`. -/
theorem test_decode_sweep :
    decode 0x000000004020000040A0000000000305 = .ok (.sweep 3 0x40A00000 0x40200000 0) := by decide
/-- E1 to E3. -/
theorem test_decode_reserved :
    decode 0x00000000000000000000000000000000 = .error (.reservedOpcode 0x00) ∧
    decode 0x00000000000000000000000000000006 = .error (.reservedOpcode 0x06) ∧
    decode 0x000000000000000000000000000000FF = .error (.reservedOpcode 0xFF) := by decide
/-- E4, E6 to E10. -/
theorem test_decode_unused_fields :
    decode 0x00000000000000000000000000010101 = .error (.unusedFieldNotZero 0x01) ∧
    decode 0x00000000000000000000000000010002 = .error (.unusedFieldNotZero 0x02) ∧
    decode 0x000000000000000042B4000005DC0003 = .error (.unusedFieldNotZero 0x03) ∧
    decode 0x000000000000000042B4000005DC0004 = .error (.unusedFieldNotZero 0x04) ∧
    decode 0x00000001000000000000000005DC0004 = .error (.unusedFieldNotZero 0x04) ∧
    decode 0x0000000A40A0000000000000FFFF0305 = .error (.unusedFieldNotZero 0x05) := by decide
theorem test_decodeTableWord : decodeTableWord 128 0x00FF02 = some (.isinit 0xFF) := by decide
/-- R27: byte 0 carries bits 7 to 0. -/
theorem test_bytes : (bytesOfWord 0x0000000000000000C120000000000103).take 8 =
    [0x03, 0x01, 0x00, 0x00, 0x00, 0x00, 0x20, 0xC1] := by decide
/-- R50's example and the text of P2 line 1 with its OR written out. -/
theorem test_assemble :
    assembleText "set_angle(0, 0.9)" = some 0x00000000000000003F66666600000003 ∧
    assembleText "init(CH0 | CH2)" = some 0x00000000000000000000000000050001 ∧
    assembleText "init(CH16)" = none := by decide

/-! ### The commands, one vector or two each -/

/-- M2, `init(CH0)` from reset: six steps after acceptance. -/
theorem test_init_trace :
    after 7 (presenting 0x00000000000000000000000000010001 State.reset) State.trace =
      some [.bind 0 (Config.sliceOf 0), .configure (Config.sliceOf 0) 0x42180000,
        .enable (Config.sliceOf 0), .writeDuty 0 4933] := rfl
/-- M10 from `0x8000`. -/
theorem test_init_zero :
    after 3 (presenting 0x00000000000000000000000000000001 (withMask 0x8000))
      (fun s => (s.initMask, s.trace, s.responses)) = some (0, [], [0]) := by decide
/-- M6. -/
theorem test_isinit_set :
    after 1 (presenting 0x00000000000000000000000000000F02 (withMask 0x8000)) State.responses =
      some [0x00000008] := by decide
/-- M8. -/
theorem test_isinit_beyond :
    after 1 (presenting 0x00000000000000000000000000001002 (withMask 0x8000)) State.responses =
      some [0x00000000] := by decide
/-- V18: double truncation. -/
theorem test_setangle_60 :
    after 2 (presenting 0x00000000000000004270000000000103 (withMask 0x0002))
      (fun s => (s.trace, s.responses)) = some ([.writeDuty 1 3834], [0]) := by decide
/-- V21: a NaN on a channel that fails validation is not looked at. -/
theorem test_setangle_nan_unchecked :
    after 1 (presenting 0x00000000000000007FC0000000000003 (withMask 0x0002))
      (fun s => (s.trace, s.responses)) = some ([], [2]) := by decide
/-- V8: not clipped, with the advisory. -/
theorem test_setpulse_max :
    after 2 (presenting 0x000000000000000000000000FFFF0104 (withMask 0x0002))
      (fun s => (s.trace, s.responses)) = some ([.writeDuty 1 215544], [4]) := by decide
/-- V10: failed validation, no advisory. -/
theorem test_setpulse_failed :
    after 1 (presenting 0x0000000000000000000000000BB80004 (withMask 0x0002))
      (fun s => (s.trace, s.responses)) = some ([], [2]) := by decide
/-- W6: a fractional start and end. -/
theorem test_sweep_fraction :
    after 9 (presenting 0x00000001404CCCCD3F00000000000305 (withMask 0xFFFF))
      (fun s => (s.trace, s.responses)) =
      some ([.writeDuty 3 1660, .sleep 1, .writeDuty 3 1697, .sleep 1, .writeDuty 3 1733, .sleep 1,
        .writeDuty 3 1759], [0]) := by decide
/-- W16: refused. -/
theorem test_sweep_nan :
    step (presenting 0x0000000140A000007FC0000000000305 (withMask 0xFFFF)) =
      .refused .nanSweepOperand := rfl
/-- E10: an illegal word. -/
theorem test_illegal :
    after 1 (presenting 0x0000000A40A0000000000000FFFF0305 (withMask 0xFFFF))
      (fun s => (s.initMask, s.trace, s.responses)) = some (0xFFFF, [], [3]) := by decide
/-- Z2 in small: reset in the middle of a sweep; no response for it, its events stand, and the next command meets
an uninitialised block. -/
theorem test_reset_mid_sweep :
    after 5 { withMask 0xFFFF with host := [.present 0x0000000A40A000000000000000000305, .wait, .wait, .reset,
        .present 0x00000000000000000000000000000302] }
      (fun s => (s.initMask, s.trace, s.responses)) =
      some (0, [.writeDuty 3 1644, .sleep 10], [0]) := by decide

/-! ### Binary32, from the vectors of section 2.2 -/

/-- A17, A18, A20 to A22. -/
theorem test_angleToPulse :
    angleToPulse32 0x00000001 = some 500 ∧ angleToPulse32 0x80000001 = some 500 ∧
    angleToPulse32 0x42B30000 = some 1494 ∧ angleToPulse32 0x3F666666 = some 510 ∧
    angleToPulse32 0x3DB851EB = some 501 := by decide

/-! ### Witnesses: states and operands that meet the hypotheses of the statements -/

/-- A block whose channel 3 is initialised, its backend events issued. -/
def ready : State :=
  { State.reset with
    initMask := 0x0008
    trace := [.bind 3 (Config.sliceOf 3), .configure (Config.sliceOf 3) 0x42180000,
      .enable (Config.sliceOf 3)] }

/-- The same block inside a sweep of channel 3 from 0 to 5 degrees. -/
def sweeping : State :=
  { ready with
    phase := .busy, swCh := 3, swA := 0x00000000, swEnd := 0x40A00000, swDly := 10
    pending := [.sweepWrite, .sweepSleep .up] }

theorem traceOk_ready : TraceOk ready.trace := by
  have h1 := traceOk_nil.snoc (e := .bind 3 (Config.sliceOf 3)) ⟨by decide, rfl⟩
  have h2 := h1.snoc (e := .configure (Config.sliceOf 3) 0x42180000) ⟨rfl, 3, [], rfl⟩
  exact h2.snoc (e := .enable (Config.sliceOf 3)) ⟨3, [], rfl⟩

theorem armed_ready (c : Channel) (h : c.toNat < 16) (hm : maskBit 0x0008 c = true) :
    armed c ready.trace := by
  have : c = 3 := by revert c; decide
  subst this
  exact ⟨by simp [ready], by simp [ready], by simp [ready]⟩

theorem witness_ready_inv : Inv ready :=
  ⟨by decide, .inl rfl, by simp [ready, State.reset], armed_ready, by
    show TraceOk (ready.trace ++ []); rw [List.append_nil]; exact traceOk_ready⟩

theorem witness_sweeping : Sweeping sweeping :=
  ⟨by decide, by decide, by decide, .inl ⟨.up, by decide, rfl⟩⟩

theorem witness_sweeping_inv : Inv sweeping :=
  ⟨by decide, .inr (.inr (.inl witness_sweeping)), by simp [sweeping, ready, State.reset], armed_ready,
    by show TraceOk (ready.trace ++ []); rw [List.append_nil]; exact traceOk_ready⟩

/-- A busy block that owes its response, with a word held at its port. -/
def answering (w : CommandWord) : State :=
  { State.reset with phase := .busy, pending := [.respond ⟨.ok, false, false⟩], host := [.present w] }

theorem witness_answering_inv (w : CommandWord) : Inv (answering w) :=
  ⟨by simp [answering], .inr (.inl ⟨_, by simp [Response.Legal], rfl⟩),
    by simp [answering, State.reset], by
      intro c _ hm
      simp [answering, State.reset, maskBit] at hm,
    traceOk_nil⟩

theorem witness_decoderIsInjective :
    ((0x00000000000000000000000000010101 : CommandWord).extractLsb' 0 8 = 0x01#8 ∧
      (0x00000000000000000000000000010101 : CommandWord).extractLsb' 8 8 ≠ 0) ∧
    ((0x00000000000000000000000000010002 : CommandWord).extractLsb' 0 8 = 0x02#8 ∧
      (0x00000000000000000000000000010002 : CommandWord).extractLsb' 16 16 ≠ 0) ∧
    ((0x00000001000000000000000000000003 : CommandWord).extractLsb' 0 8 = 0x03#8 ∧
      (0x00000001000000000000000000000003 : CommandWord).extractLsb' 96 32 ≠ 0) ∧
    ((0x000000000000000042B4000005DC0004 : CommandWord).extractLsb' 0 8 = 0x04#8 ∧
      (0x000000000000000042B4000005DC0004 : CommandWord).extractLsb' 32 32 ≠ 0) ∧
    ((0x0000000A40A0000000000000FFFF0305 : CommandWord).extractLsb' 0 8 = 0x05#8 ∧
      (0x0000000A40A0000000000000FFFF0305 : CommandWord).extractLsb' 16 16 ≠ 0) ∧
    decode 0x00000000000000000000000000010001 = .ok (.init 1) := by decide

theorem witness_assembler : (65535 < 65536) ∧ (255 < 256) ∧ (65536 ≤ 65536) ∧ (256 ≤ 256) ∧
    (4294967295 < 4294967296) ∧ (⟨true, 5, 2⟩ : Decimal).den ≠ 0 ∧ (⟨false, 1, 0⟩ : Decimal).den = 0 ∧
    assemble (.sweep 255 ⟨false, 5, 1⟩ ⟨true, 5, 2⟩ 4294967295) = some 0xFFFFFFFFC020000040A000000000FF05 ∧
    assemble (.sweep 255 ⟨false, 5, 1⟩ ⟨true, 5, 2⟩ 4294967296) = none ∧
    assemble (.init 65535) = some 0x000000000000000000000000FFFF0001 ∧ assemble (.isInitialized 256) = none := by
  decide

theorem witness_stepRunsTheDecodedCommand :
    (presenting 0x00000000000000000000000000000F02 State.reset).phase = .idle ∧
    (presenting 0x00000000000000000000000000000F02 State.reset).host =
      .present 0x00000000000000000000000000000F02 :: [] ∧
    decode 0x00000000000000000000000000000F02 = .ok (.isinit 15) := by decide

theorem witness_withFetchWord : (State.reset.withFetchWord 128 0xF02).phase = .idle ∧
    (State.reset.withFetchWord 128 0xF02).host = .present 0x00000000000000000000000000000F02 :: [] := by decide

theorem witness_illegalWord :
    (presenting 0x06 State.reset).phase = .idle ∧ (presenting 0x06 State.reset).pending = [] ∧
    decode 0x06 = .error (.reservedOpcode 0x06) ∧ (0x00 : CommandWord).extractLsb' 0 8 = 0x00#8 ∧
    0x06 ≤ ((0xFF : CommandWord).extractLsb' 0 8).toNat ∧
    ∀ r ∈ opcodeRows, r.selects 0x06 = false := by decide

theorem witness_busyBlockDoesNotAccept : Inv (answering 0x0F02) ∧ (answering 0x0F02).phase = .busy ∧
    (answering 0x0F02).host = .present 0x0F02 :: [] :=
  ⟨witness_answering_inv _, rfl, rfl⟩

theorem witness_idleBlockWaits : State.reset.phase = .idle ∧ State.reset.host = [] ∧
    ({ State.reset with host := [.wait] } : State).host = .wait :: [] := by decide

theorem witness_waiting : ({ sweeping with host := [.wait] } : State).host = .wait :: [] ∧
    ∃ t, step { ({ sweeping with host := [.wait] } : State) with host := [] } = .next t :=
  ⟨rfl, _, rfl⟩

theorem witness_commandsAnswer :
    exec (.isinit 0) State.reset = .next (respond ⟨.ok, false, false⟩ State.reset) ∧
    exec (.setpulse 3 399) ready =
      .next (begin [.respond ⟨.ok, true, false⟩] (emit (.writeDuty 3 1312) ready)) ∧
    MicroOp.respond ⟨.ok, true, false⟩ ∈ (begin [.respond ⟨.ok, true, false⟩] ready).pending ∧
    MicroOp.respond okResponse ∈ (runOp (.sweepSleep .up) { sweeping with swA := 0x40A00000 }).pending := by
  refine ⟨rfl, rfl, ?_, ?_⟩ <;> decide

theorem witness_quiet : Quiet State.reset ∧ Quiet ready ∧ Quiet sweeping ∧ Quiet (answering 0x0F02) :=
  ⟨.inl rfl, .inl rfl, .inl rfl, .inr ⟨_, _, rfl⟩⟩

theorem witness_initReplacesTheMask : (1 : Channel).toNat < 16 ∧
    (0x0008 : ChannelMask).getLsbD (1 : Channel).toNat = false := by decide

theorem witness_isinit :
    ((15 : Channel).toNat ≤ 15 ∧ (withMask 0x8000).initMask.getLsbD (15 : Channel).toNat = true) ∧
    ((15 : Channel).toNat ≤ 15 ∧ (withMask 0x7FFF).initMask.getLsbD (15 : Channel).toNat = false) ∧
    16 ≤ (16 : Channel).toNat := by decide

theorem witness_registryLaws : ∃ t, exec (.isinit 3) ready = .next t ∧ isInitialized 3 t = true :=
  ⟨_, rfl, by decide⟩

theorem witness_clampCases :
    F32.lt 0xC1200000 0x00000000 = true ∧ F32.lt 0x43340000 0x43340001 = true ∧
    F32.lt 0x43340000 0x00000000 = false ∧ F32.lt 0x43340000 0x43340000 = false ∧
    F32.isNaN 0x7FC00000 = true := by decide

theorem witness_angles :
    F32.isNaN 0x42B40000 = false ∧ F32.isNaN 0x7F800000 = false ∧ F32.isNaN 0xFF800001 = true ∧
    F32.lt 0x42B40000 0x42B40000 = false ∧ config.angleToPulse 0x42B40000 = some 1500 ∧
    F32.lt 0x00000000 0x80000000 = false ∧ F32.lt 0x43340000 0x43340000 = false := by decide

theorem witness_pulses : (65534 : PulseWidth).toNat < 65535 ∧ (0 : PulseWidth).toNat ≤ (65535 : PulseWidth).toNat ∧
    angleToDuty 0x00000000 = some 1644 ∧ (pulseToDuty 19925).toNat ≤ 65535 ∧
    ¬ (pulseToDuty 19926).toNat ≤ 65535 := by decide

theorem witness_advisory_bounds : unusualPulse 399 = true ∧ unusualPulse 400 = false ∧
    unusualPulse 2600 = false ∧ unusualPulse 2601 = true := by decide

theorem witness_failedValidation : 16 ≤ (16 : Channel).toNat ∧ (15 : Channel).toNat < 16 ∧
    ready.initMask.getLsbD (15 : Channel).toNat = false := by decide

theorem witness_failureLeavesTheNextCommandAlone : ready.phase = .idle ∧ ready.pending = [] ∧
    exec (.isinit 3) ready = .next (respond ⟨.ok, false, true⟩ ready) ∧
    exec (.sweep 3 0x7FC00000 0 0) ready = .refused .nanSweepOperand :=
  ⟨rfl, rfl, rfl, rfl⟩

theorem witness_channelInitialised : (3 : Channel).toNat < 16 ∧
    ready.initMask.getLsbD (3 : Channel).toNat = true ∧ (withMask 0xFFFF).initMask.getLsbD 3 = true ∧
    sweeping.initMask.getLsbD sweeping.swCh.toNat = true ∧ sweeping.swCh.toNat < 16 := by decide

theorem witness_sweepStep : sweeping.phase = .busy ∧ angleToDuty sweeping.swA = some 1644 ∧
    sweeping.pending = [.sweepWrite, .sweepSleep .up] ∧ angleToDuty sweeping.swEnd = some 1825 ∧
    ({ sweeping with pending := [.sweepWrite, .sweepSleep .down] } : State).phase = .busy ∧
    ({ sweeping with pending := sweepEnd } : State).pending =
      [.sweepFinal, .respond ⟨.ok, false, false⟩] := by decide

theorem witness_nothingInterferes : Inv sweeping ∧ Sweeping sweeping ∧
    (∀ rest, sweeping.host ≠ .reset :: rest) ∧
    (∃ t, step sweeping = .next t ∧ t.pending = [.sweepSleep .up]) ∧
    Inv (answering 0x0F02) ∧ (∀ rest, (answering 0x0F02).host ≠ .reset :: rest) ∧
    (answering 0x0F02).pending = [.respond ⟨.ok, false, false⟩] :=
  ⟨witness_sweeping_inv, witness_sweeping, by intro rest h; simp [sweeping, ready, State.reset] at h,
    ⟨_, rfl, rfl⟩, witness_answering_inv _, by intro rest h; simp [answering] at h, rfl⟩

/-- A sweep that has ended: W9 in small, `sweep(3, 90, 91, 0)`. -/
theorem witness_sweepEnds : ready.host = [] ∧
    ∃ t u, exec (.sweep 3 0x42B40000 0x42B60000 0) ready = .next t ∧ Runs 4 t u ∧ u.phase = .idle :=
  ⟨rfl, _, _, rfl, rfl, rfl⟩

/-- The angles 0, 1, 2 are exact, and 2 is the ceiling of 1.5 - 0; downward, 1.5, 0.5, -0.5 are exact. -/
theorem witness_stepCount :
    F32.position (F32.ofBits 0x00000000) = some 0 ∧
    F32.position (F32.ofBits 0x3FC00000) = some (F32.one + F32.one / 2 : Nat) ∧
    ((0 : Int) ≤ (F32.one + F32.one / 2 : Nat) ∧
      ((F32.one + F32.one / 2 : Nat) - (0 : Int) ≤ (2 : Nat) * F32.one ∧
        ((2 : Nat) = 0 ∨ ((2 : Nat) - 1 : Int) * F32.one < (F32.one + F32.one / 2 : Nat) - (0 : Int)))) ∧
    F32.position (F32.ofBits 0x3F800000) = some ((0 : Int) + (1 : Nat) * F32.one) ∧
    F32.position (F32.ofBits 0x40000000) = some ((0 : Int) + (2 : Nat) * F32.one) ∧
    (F32.one + F32.one / 2 : Nat) - (0 : Int) ≤ (2 : Nat) * F32.one ∧
    F32.position (F32.ofBits 0x3F000000) =
      some (((F32.one + F32.one / 2 : Nat) : Int) - (1 : Nat) * F32.one) ∧
    F32.position (F32.ofBits 0xBF000000) =
      some (((F32.one + F32.one / 2 : Nat) : Int) - (2 : Nat) * F32.one) := by decide

theorem witness_boundedSweep :
    F32.isNaN 0x4B800000 = false ∧ F32.lt 0x4B800000 0x4B800000 = false ∧
    F32.lt 0x4B800000 0xCB800000 = false ∧ F32.lt 0xCB800000 0xCB800000 = false ∧
    F32.lt 0x4B800000 0x4B800001 = true := by decide

/-- W14: the loop angle 16777216 towards 16777220, and its mirror. -/
theorem witness_stuckSweep :
    angleToDuty 0x4B800000 = some 8222 ∧
    (F32.add 0x4B800000 0x3F800000 = 0x4B800000 ∧ F32.lt 0x4B800000 0x4B800002 = true) ∧
    (F32.sub 0xCB800000 0x3F800000 = 0xCB800000 ∧ F32.lt 0xCB800002 0xCB800000 = true) ∧
    ({ sweeping with swA := 0x4B800000, swEnd := 0x4B800002 } : State).pending =
      [.sweepWrite, .sweepSleep .up] := by decide

theorem witness_sweepLaws_directions : F32.lt 0x42B40000 0x42B60000 = true ∧
    F32.lt 0x00000000 0x80000000 = false ∧ F32.lt 0x80000000 0x00000000 = false := by decide

theorem witness_commandFrame : (∀ ch a b d, Instr.setpulse 3 1500 ≠ .sweep ch a b d) ∧
    (∀ ch a, Instr.setpulse 3 1500 ≠ .setangle ch a) ∧
    ∃ t, exec (.setpulse 3 1500) ready = .next t :=
  ⟨by simp, by simp, _, rfl⟩

theorem witness_sequencerFrame :
    (runOp .sweepWrite sweeping).trace = sweeping.trace ++ [.writeDuty 3 1644] ∧
    (runOp (.centre 3) ready).trace = ready.trace ++ [.writeDuty 3 4933] ∧
    MicroOp.centre 3 ≠ .sweepWrite ∧ MicroOp.bind 3 ≠ .sweepFinal :=
  ⟨rfl, rfl, by simp, by simp⟩

/-- A step writes the mask in `INIT` phase 2. -/
theorem witness_onlyInitWritesTheMask :
    ∃ t, step { State.reset with phase := .busy, pending := [.setMask 5, .respond okResponse] } = .next t ∧
      t.initMask = 5 :=
  ⟨_, rfl, rfl⟩

theorem witness_schedulesAMaskWrite :
    ∃ t, step (presenting 0x00000000000000000000000000050001 State.reset) = .next t ∧
      MicroOp.setMask 5 ∈ t.pending :=
  ⟨_, rfl, by decide⟩

theorem witness_everyStepKeepsTheInvariant : Inv sweeping ∧ ∃ t, step sweeping = .next t :=
  ⟨witness_sweeping_inv, _, rfl⟩

/-- The invariant holds where a step refuses, too. -/
theorem witness_nothingElseStops :
    Inv { ready with host := [.present 0x0000000140A000007FC0000000000305] } ∧
    step { ready with host := [.present 0x0000000140A000007FC0000000000305] } =
      .refused .nanSweepOperand :=
  ⟨⟨by decide, .inl rfl, by simp [ready, State.reset], armed_ready, by
    show TraceOk (ready.trace ++ []); rw [List.append_nil]; exact traceOk_ready⟩, rfl⟩

theorem witness_everyRun :
    ∃ t, Runs 4 { State.reset with host := [.present 0x00000000000000000000000000010001, .wait, .wait, .reset] } t :=
  ⟨_, rfl⟩

theorem witness_channelStates :
    ∃ t, step { State.reset with phase := .busy, pending := [.setMask 8, .respond okResponse] } = .next t ∧
      isInitialized 3 t ≠
        isInitialized 3 { State.reset with phase := .busy, pending := [.setMask 8, .respond okResponse] } :=
  ⟨_, rfl, by decide⟩

theorem witness_resetAbandons : ({ sweeping with host := [.reset] } : State).host = .reset :: [] := rfl

theorem witness_beforeInit : State.reset.initMask = 0x0000#16 ∧ ∀ m, Instr.setangle 0 0 ≠ .init m :=
  ⟨rfl, by simp⟩

end Sys2Proof.Tests
end

/-! PROOFS of the encoding statements (spec/30_encoding.md R42 to R44): the decoder and the rows of the opcode
map, each by the fields of the word, and what an idle block does with an illegal word. -/

namespace Sys2Proof

/-! ### The decoder by fields -/

/-- The commands a word decodes to, by its fields: the opcode selects the command, the fields the command does
not use are zero, and the others are the operands (R42, R43). -/
theorem decode_eq_ok_iff {w : CommandWord} {i : Instr} : decode w = .ok i ↔
    (fieldOp w = 0x01#8 ∧ (fieldCh w = 0 ∧ fieldW0 w = 0 ∧ fieldW1 w = 0 ∧ fieldW2 w = 0) ∧
      i = .init (fieldH w)) ∨
    (fieldOp w = 0x02#8 ∧ (fieldH w = 0 ∧ fieldW0 w = 0 ∧ fieldW1 w = 0 ∧ fieldW2 w = 0) ∧
      i = .isinit (fieldCh w)) ∨
    (fieldOp w = 0x03#8 ∧ (fieldH w = 0 ∧ fieldW1 w = 0 ∧ fieldW2 w = 0) ∧
      i = .setangle (fieldCh w) (fieldW0 w)) ∨
    (fieldOp w = 0x04#8 ∧ (fieldW0 w = 0 ∧ fieldW1 w = 0 ∧ fieldW2 w = 0) ∧
      i = .setpulse (fieldCh w) (fieldH w)) ∨
    (fieldOp w = 0x05#8 ∧ fieldH w = 0 ∧
      i = .sweep (fieldCh w) (fieldW0 w) (fieldW1 w) (fieldW2 w)) := by
  unfold decode
  split_ifs <;> simp_all [eq_comm (a := i)]

theorem exists_decode_error_iff {w : CommandWord} :
    (∃ e, decode w = .error e) ↔ ∀ i, decode w ≠ .ok i := by
  cases decode w <;> simp

theorem decode_of_reserved {w : CommandWord} (h : fieldOp w = 0x00#8 ∨ 0x06 ≤ (fieldOp w).toNat) :
    decode w = .error (.reservedOpcode (fieldOp w)) := by
  have hne : fieldOp w ≠ 0x01#8 ∧ fieldOp w ≠ 0x02#8 ∧ fieldOp w ≠ 0x03#8 ∧ fieldOp w ≠ 0x04#8 ∧
        fieldOp w ≠ 0x05#8 := by
    refine ⟨?_, ?_, ?_, ?_, ?_⟩ <;> bv_omega
  simp [decode, hne]

/-- Re-encoding a decoded command gives back its word (R43). -/
theorem encode_of_decode {w : CommandWord} {i : Instr} (h : decode w = .ok i) : encode i = w := by
  have hw := commandWord_fields w
  rcases decode_eq_ok_iff.1 h with ⟨hop, hz, rfl⟩ | ⟨hop, hz, rfl⟩ | ⟨hop, hz, rfl⟩ | ⟨hop, hz, rfl⟩ |
    ⟨hop, hz, rfl⟩ <;> simpa only [encode, hop, hz] using hw

/-- A word with a non-zero bit in a field its opcode does not use is illegal (R43). -/
theorem decode_error_of_unused_ne_zero {w : CommandWord}
    (h : fieldOp w = 0x01#8 ∧ (fieldCh w ≠ 0 ∨ fieldW0 w ≠ 0 ∨ fieldW1 w ≠ 0 ∨ fieldW2 w ≠ 0) ∨
      fieldOp w = 0x02#8 ∧ (fieldH w ≠ 0 ∨ fieldW0 w ≠ 0 ∨ fieldW1 w ≠ 0 ∨ fieldW2 w ≠ 0) ∨
      fieldOp w = 0x03#8 ∧ (fieldH w ≠ 0 ∨ fieldW1 w ≠ 0 ∨ fieldW2 w ≠ 0) ∨
      fieldOp w = 0x04#8 ∧ (fieldW0 w ≠ 0 ∨ fieldW1 w ≠ 0 ∨ fieldW2 w ≠ 0) ∨
      fieldOp w = 0x05#8 ∧ fieldH w ≠ 0) :
    ∃ e, decode w = .error e := by
  refine exists_decode_error_iff.2 fun i hi => ?_
  rw [decode_eq_ok_iff] at hi
  rcases h with ⟨hop, hu⟩ | ⟨hop, hu⟩ | ⟨hop, hu⟩ | ⟨hop, hu⟩ | ⟨hop, hu⟩ <;>
    simp [hop] at hi <;> simp [hi] at hu

/-! ### The rows of the opcode map by fields -/

/-- A masked word compared field by field. -/
theorem and_commandWord_eq_iff (w : CommandWord) (op op' ch ch' : BitVec 8) (h h' : BitVec 16)
    (w0 w0' w1 w1' w2 w2' : BitVec 32) :
    w &&& commandWord op ch h w0 w1 w2 = commandWord op' ch' h' w0' w1' w2' ↔
      fieldOp w &&& op = op' ∧ fieldCh w &&& ch = ch' ∧ fieldH w &&& h = h' ∧ fieldW0 w &&& w0 = w0' ∧
        fieldW1 w &&& w1 = w1' ∧ fieldW2 w &&& w2 = w2' := by
  conv_lhs => rw [← commandWord_fields w]
  rw [commandWord_and, commandWord_inj]

theorem matches_init_iff (w : CommandWord) :
    w &&& 0xFFFFFFFFFFFFFFFFFFFFFFFF0000FFFF = 0x00000000000000000000000000000001 ↔
      fieldOp w = 0x01#8 ∧ fieldCh w = 0 ∧ fieldW0 w = 0 ∧ fieldW1 w = 0 ∧ fieldW2 w = 0 :=
  (and_commandWord_eq_iff w (.allOnes _) 0x01 (.allOnes _) 0 0 0 (.allOnes _) 0 (.allOnes _) 0 (.allOnes _) 0).trans
    (by simp only [BitVec.ofNat_eq_ofNat, BitVec.and_allOnes, BitVec.and_zero, true_and])

theorem matches_isinit_iff (w : CommandWord) :
    w &&& 0xFFFFFFFFFFFFFFFFFFFFFFFFFFFF00FF = 0x00000000000000000000000000000002 ↔
      fieldOp w = 0x02#8 ∧ fieldH w = 0 ∧ fieldW0 w = 0 ∧ fieldW1 w = 0 ∧ fieldW2 w = 0 :=
  (and_commandWord_eq_iff w (.allOnes _) 0x02 0 0 (.allOnes _) 0 (.allOnes _) 0 (.allOnes _) 0 (.allOnes _) 0).trans
    (by simp only [BitVec.ofNat_eq_ofNat, BitVec.and_allOnes, BitVec.and_zero, true_and])

theorem matches_setangle_iff (w : CommandWord) :
    w &&& 0xFFFFFFFFFFFFFFFF00000000FFFF00FF = 0x00000000000000000000000000000003 ↔
      fieldOp w = 0x03#8 ∧ fieldH w = 0 ∧ fieldW1 w = 0 ∧ fieldW2 w = 0 :=
  (and_commandWord_eq_iff w (.allOnes _) 0x03 0 0 (.allOnes _) 0 0 0 (.allOnes _) 0 (.allOnes _) 0).trans
    (by simp only [BitVec.ofNat_eq_ofNat, BitVec.and_allOnes, BitVec.and_zero, true_and])

theorem matches_setpulse_iff (w : CommandWord) :
    w &&& 0xFFFFFFFFFFFFFFFFFFFFFFFF000000FF = 0x00000000000000000000000000000004 ↔
      fieldOp w = 0x04#8 ∧ fieldW0 w = 0 ∧ fieldW1 w = 0 ∧ fieldW2 w = 0 :=
  (and_commandWord_eq_iff w (.allOnes _) 0x04 0 0 0 0 (.allOnes _) 0 (.allOnes _) 0 (.allOnes _) 0).trans
    (by simp only [BitVec.ofNat_eq_ofNat, BitVec.and_allOnes, BitVec.and_zero, true_and])

theorem matches_sweep_iff (w : CommandWord) :
    w &&& 0x000000000000000000000000FFFF00FF = 0x00000000000000000000000000000005 ↔
      fieldOp w = 0x05#8 ∧ fieldH w = 0 :=
  (and_commandWord_eq_iff w (.allOnes _) 0x05 0 0 (.allOnes _) 0 0 0 0 0 0 0).trans
    (by simp only [BitVec.ofNat_eq_ofNat, BitVec.and_allOnes, BitVec.and_zero, true_and, and_true])

/-- Every row's mask keeps the whole opcode, so a word that selects a row has the row's opcode. -/
theorem fieldOp_of_selects {w : CommandWord} {r : OpcodeRow} (hr : r ∈ opcodeRows)
    (h : r.selects w = true) : fieldOp w = fieldOp r.matchWord := by
  have hmask : ∀ r ∈ opcodeRows, fieldOp r.maskWord = .allOnes 8 := by decide
  rw [← beq_iff_eq.1 h]
  simp only [fieldOp, BitVec.extractLsb'_and] at hmask ⊢
  rw [hmask r hr, BitVec.and_allOnes]

/-- The rows of R42 are disjoint, since their opcodes differ. -/
theorem opcodeRows_disjoint :
    opcodeRows.Pairwise fun a b => ∀ w, ¬ (a.selects w = true ∧ b.selects w = true) := by
  have hne : opcodeRows.Pairwise fun a b => fieldOp a.matchWord ≠ fieldOp b.matchWord := by decide
  exact hne.imp_of_mem fun ha hb hab w ⟨hwa, hwb⟩ =>
    hab ((fieldOp_of_selects ha hwa).symm.trans (fieldOp_of_selects hb hwb))

/-- The opcode map: a row's match and mask, and the operands in their fields (R42). -/
theorem decode_eq_ok_iff_matches {w : CommandWord} {i : Instr} : decode w = .ok i ↔
    (w &&& 0xFFFFFFFFFFFFFFFFFFFFFFFF0000FFFF = 0x00000000000000000000000000000001 ∧
      i = .init (fieldH w)) ∨
    (w &&& 0xFFFFFFFFFFFFFFFFFFFFFFFFFFFF00FF = 0x00000000000000000000000000000002 ∧
      i = .isinit (fieldCh w)) ∨
    (w &&& 0xFFFFFFFFFFFFFFFF00000000FFFF00FF = 0x00000000000000000000000000000003 ∧
      i = .setangle (fieldCh w) (fieldW0 w)) ∨
    (w &&& 0xFFFFFFFFFFFFFFFFFFFFFFFF000000FF = 0x00000000000000000000000000000004 ∧
      i = .setpulse (fieldCh w) (fieldH w)) ∨
    (w &&& 0x000000000000000000000000FFFF00FF = 0x00000000000000000000000000000005 ∧
      i = .sweep (fieldCh w) (fieldW0 w) (fieldW1 w) (fieldW2 w)) := by
  rw [matches_init_iff, matches_isinit_iff, matches_setangle_iff, matches_setpulse_iff,
    matches_sweep_iff, decode_eq_ok_iff]
  simp only [and_assoc]

/-- A word is illegal exactly when it selects no row (R44). -/
theorem no_row_selects_iff {w : CommandWord} :
    (∀ r ∈ opcodeRows, r.selects w = false) ↔ ∃ e, decode w = .error e := by
  rw [exists_decode_error_iff]
  simp [opcodeRows, OpcodeRow.selects, decode_eq_ok_iff_matches, forall_and]

end Sys2Proof

namespace Sys2Proof.Machine

theorem step_of_presented {s : State} {w : CommandWord} {rest : List HostInput}
    (hidle : s.phase = .idle) (hhost : s.host = .present w :: rest) :
    step s = acceptWord w rest s := by
  simp [step, stepBlock, hhost, hidle]

theorem acceptWord_of_error {w : CommandWord} {e : DecodeError} (h : decode w = .error e)
    (rest : List HostInput) (s : State) :
    acceptWord w rest s = .next (raise .illegalCommand (accept rest s)) := by
  simp [acceptWord, h]

/-- A condition raised on acceptance leaves an idle block as it was, but for the host and the response
(R104). -/
theorem raise_accept_of_idle {s : State} (hidle : s.phase = .idle) (hpending : s.pending = [])
    (c : Status) (rest : List HostInput) :
    raise c (accept rest s) =
      { s with host := rest, responses := s.responses ++ [(⟨c, false, false⟩ : Response).word] } := by
  cases s
  cases hidle
  cases hpending
  rfl

theorem illegalCommand_word : (⟨.illegalCommand, false, false⟩ : Response).word = 0x00000003#32 := rfl

/-! ### The statements -/

/-- Settles O2: the decoder by fields gives the first clause, and re-encoding the other two. -/
theorem decoderIsInjective : Obligations.DecoderIsInjective := by
  refine ⟨fun w h => ?_, fun w w' i h h' => ?_, fun w i => encode_of_decode⟩
  · have herror := decode_error_of_unused_ne_zero h
    exact ⟨no_row_selects_iff.2 herror, herror⟩
  · exact (encode_of_decode h).symm.trans (encode_of_decode h')

/-- Settles O3: each row's match and mask says the same of a word's fields as the decoder's tests do. -/
theorem opcodeMapByMatchAndMask : Obligations.OpcodeMapByMatchAndMask :=
  ⟨fun _ _ => decode_eq_ok_iff_matches, opcodeRows_disjoint⟩

/-- Settles O8: an illegal word is accepted only to raise `IllegalCommand`. -/
theorem illegalWordAnswersIllegalCommand : Obligations.IllegalWordAnswersIllegalCommand := by
  refine ⟨fun s w rest e hidle hpending hhost herror => ?_, fun w => decode_of_reserved,
    fun w => no_row_selects_iff.1⟩
  rw [step_of_presented hidle hhost, acceptWord_of_error herror, raise_accept_of_idle hidle hpending,
    illegalCommand_word]

end Sys2Proof.Machine

/-! PROOFS of the Channel Registry statements (spec/40_channel_registry.md R55 to R59): the run of an `INIT` from
acceptance to its response, and the answer of `ISINIT` as a bit of the register. -/

namespace Sys2Proof.Machine

/-! ### The block at the head of a list of micro-operations -/

theorem step_begin_cons {s : State} (hquiet : Quiet s) (op : MicroOp) (ops : List MicroOp) :
    step (begin (op :: ops) s) = .next (runOp op (begin ops s)) :=
  step_of_quiet (s := begin (op :: ops) s) hquiet rfl rfl

/-- One micro-operation, and the steps after it. -/
theorem runs_begin_cons {s u : State} {n : Nat} (hquiet : Quiet s) {op : MicroOp} {ops : List MicroOp}
    (h : Runs n (runOp op (begin ops s)) u) : Runs (n + 1) (begin (op :: ops) s) u :=
  runs_succ_iff.2 ⟨_, step_begin_cons hquiet op ops, h⟩

/-- The state after some backend events. -/
def emitAll (es : List Event) (s : State) : State := { s with trace := s.trace ++ es }

@[simp] theorem emitAll_nil (s : State) : emitAll [] s = s := by
  simp [emitAll]

theorem emitAll_cons (e : Event) (es : List Event) (s : State) :
    emitAll (e :: es) s = emitAll es (emit e s) := by
  simp [emitAll, emit]

/-! ### The phases of `INIT` (R55) -/

/-- A micro-operation of phase 1 issues its event and does nothing else. -/
theorem runOp_of_phase1Event {op : MicroOp} {e : Event} (h : phase1Event op = some e) (s : State) :
    runOp op s = emit e s := by
  cases op <;> cases h <;> rfl

/-- Phase 1 issues its events in order, one a step. -/
theorem runs_phase1 {ops : List MicroOp} (h : ∀ op ∈ ops, ∃ e, phase1Event op = some e)
    (rest : List MicroOp) {s : State} (hquiet : Quiet s) :
    Runs ops.length (begin (ops ++ rest) s) (begin rest (emitAll (pendingEvents ops) s)) := by
  induction ops generalizing s with
  | nil => simp [pendingEvents]
  | cons op ops ih =>
    obtain ⟨⟨e, he⟩, hops⟩ := List.forall_mem_cons.1 h
    have hevents : pendingEvents (op :: ops) = e :: pendingEvents ops := by simp [pendingEvents, he]
    refine runs_begin_cons hquiet ?_
    rw [runOp_of_phase1Event he, hevents, emitAll_cons]
    exact ih hops (s := emit e s) hquiet

theorem phase1Event_of_mem_configureOps {c : Channel} {op : MicroOp} (h : op ∈ configureOps c) :
    ∃ e, phase1Event op = some e := by
  simp only [configureOps, List.mem_cons, List.not_mem_nil, or_false] at h
  rcases h with rfl | rfl | rfl <;> exact ⟨_, rfl⟩

/-- The centre command writes 4933 to an initialised channel (R55, R71). -/
theorem runOp_centre {c : Channel} {s : State} (h : validate c s = .ok) :
    runOp (.centre c) s = emit (.writeDuty c 4933#18) s := by
  rw [runOp, setAngleOp_of_some h angleToPulse32_center, pulseToDuty_center]
  rfl

/-- Phase 3 centres initialised channels in order, one a step. -/
theorem runs_centre {cs : List Channel} (rest : List MicroOp) {s : State} (hquiet : Quiet s)
    (h : ∀ c ∈ cs, validate c s = .ok) :
    Runs cs.length (begin (cs.map .centre ++ rest) s)
      (begin rest (emitAll (cs.map (.writeDuty · 4933#18)) s)) := by
  induction cs generalizing s with
  | nil => simp
  | cons c cs ih =>
    obtain ⟨hc, hcs⟩ := List.forall_mem_cons.1 h
    refine runs_begin_cons hquiet ?_
    rw [runOp_centre (s := begin _ s) hc, List.map_cons, emitAll_cons]
    exact ih (s := emit (.writeDuty c 4933#18) s) hquiet hcs

/-! ### The whole of `INIT` -/

/-- The events of `INIT(MASK)`: phase 1 binds, configures and enables, phase 3 centres (R55). -/
def initEvents (mask : ChannelMask) : List Event :=
  (channelsOf mask).flatMap configureEvents ++ (channelsOf mask).map (.writeDuty · 4933#18)

/-- The state in which `INIT(MASK)` ends. -/
def afterInit (mask : ChannelMask) (s : State) : State :=
  { s with
    initMask := mask
    phase := .idle
    pending := []
    trace := s.trace ++ initEvents mask
    responses := s.responses ++ [0x00000000#32] }

theorem length_flatMap_configureOps (cs : List Channel) :
    (cs.flatMap configureOps).length = 3 * cs.length := by
  simp [List.length_flatMap, configureOps, Nat.mul_comm]

/-- `INIT` runs to `afterInit`: three steps for each channel of the mask, the write of the register, one step
more for each channel, and the response. -/
theorem runs_init (mask : ChannelMask) {s : State} (hquiet : Quiet s) :
    Runs (4 * (channelsOf mask).length + 2) (begin (initOps mask) s) (afterInit mask s) := by
  have hphase1 := runs_phase1 (ops := (channelsOf mask).flatMap configureOps)
    (fun op hop => (List.mem_flatMap.1 hop).elim fun _ hc => phase1Event_of_mem_configureOps hc.2)
    (.setMask mask :: ((channelsOf mask).map .centre ++ [.respond okResponse])) hquiet
  rw [length_flatMap_configureOps, pendingEvents_flatMap_configureOps] at hphase1
  have hphase3 := runs_centre (cs := channelsOf mask) [.respond okResponse]
    (s := { emitAll ((channelsOf mask).flatMap configureEvents) s with initMask := mask }) hquiet
    fun c hc => validate_eq_ok_iff.2 (mem_channelsOf.1 hc)
  have hphase2 := runs_begin_cons (s := emitAll ((channelsOf mask).flatMap configureEvents) s)
    (op := .setMask mask) hquiet hphase3
  have hrespond := runs_one_iff.2 (step_begin_cons (s := emitAll ((channelsOf mask).map (.writeDuty · 4933#18))
    { emitAll ((channelsOf mask).flatMap configureEvents) s with initMask := mask })
    hquiet (.respond okResponse) [])
  convert (hphase1.trans hphase2).trans hrespond using 1
  · omega
  · simp [initOps, okResponse]
  · rw [afterInit, initEvents, ← List.append_assoc]
    rfl

/-- `INIT` is never refused, and ends in `afterInit` (R55, R57). -/
theorem exec_init_runs (mask : ChannelMask) {s : State} (hquiet : Quiet s) :
    ∃ t n, exec (.init mask) s = .next t ∧ Runs n t (afterInit mask s) :=
  ⟨_, _, rfl, runs_init mask hquiet⟩

/-! ### The channels the events of `INIT` name -/

theorem bind_mem_initEvents {mask : ChannelMask} {c : Channel} {h : SliceHandle} :
    Event.bind c h ∈ initEvents mask ↔ c ∈ channelsOf mask ∧ h = Config.sliceOf c := by
  simp [initEvents, configureEvents]

theorem writeDuty_mem_initEvents {mask : ChannelMask} {c : Channel} {v : DutyValue} :
    Event.writeDuty c v ∈ initEvents mask ↔ c ∈ channelsOf mask ∧ v = 4933#18 := by
  simp [initEvents, configureEvents, eq_comm (a := v)]

/-- Events without a write to a channel leave its compare value (R19, R116). -/
theorem dutyOf_append_of_not_written {c : Channel} {es : List Event}
    (h : ∀ v, Event.writeDuty c v ∉ es) (tr : List Event) : dutyOf c (tr ++ es) = dutyOf c tr := by
  have hnone : dutyOf c es = none := by
    induction es with
    | nil => rfl
    | cons e es ih =>
      have hes := ih fun v hv => h v (List.mem_cons_of_mem _ hv)
      cases e with
      | writeDuty c' v =>
        have hne : c' ≠ c := by rintro rfl; exact h v List.mem_cons_self
        simp [dutyOf, hes, hne]
      | bind _ _ | configure _ _ | enable _ | sleep _ => simp [dutyOf, hes]
  rw [dutyOf_append, hnone, Option.none_or]

/-! ### The answer of `ISINIT` (R58) -/

/-- A channel of 16 or more has no bit in a 16-bit mask, so the answer is the mask's bit in every case. -/
theorem isInitialized_eq_getLsbD (c : Channel) (s : State) :
    isInitialized c s = s.initMask.getLsbD c.toNat := by
  by_cases h : c.toNat < 16
  · simp [isInitialized, h, maskBit]
  · simp [isInitialized, h, BitVec.getLsbD_of_ge _ _ (Nat.not_lt.1 h)]

theorem exec_isinit (c : Channel) (s : State) :
    exec (.isinit c) s = .next (respond ⟨.ok, false, s.initMask.getLsbD c.toNat⟩ s) := by
  rw [← isInitialized_eq_getLsbD]
  rfl

theorem resultResponse_word (b : Bool) :
    (⟨.ok, false, b⟩ : Response).word = if b = true then 0x00000008#32 else 0x00000000#32 := by
  cases b <;> rfl

theorem decode_isinit (c : Channel) : decode (commandWord 0x02#8 c 0 0 0 0) = .ok (.isinit c) :=
  decode_eq_ok_iff.2 (.inr (.inl (by simp)))

/-! ### The statements -/

/-- Settles O15: the events of `INIT` name only channels of the mask. -/
theorem initReplacesTheMask : Obligations.InitReplacesTheMask := by
  intro mask s hquiet
  obtain ⟨t, n, hexec, hruns⟩ := exec_init_runs mask hquiet
  refine ⟨t, n, afterInit mask s, initEvents mask, hexec, hruns, rfl, rfl, rfl, fun c _ hbit => ?_⟩
  have habsent : c ∉ channelsOf mask := fun hc =>
    Bool.false_ne_true (hbit.symm.trans (mem_channelsOf.1 hc).2)
  have hnoWrite : ∀ v, Event.writeDuty c v ∉ initEvents mask := fun _ hv =>
    habsent (writeDuty_mem_initEvents.1 hv).1
  exact ⟨(isInitialized_eq_getLsbD c _).trans hbit, fun _ hb => habsent (bind_mem_initEvents.1 hb).1,
    hnoWrite, dutyOf_append_of_not_written hnoWrite s.trace⟩

/-- Settles O16: `ISINIT` responds with the register's bit, which is 0 for a channel of 16 or more. -/
theorem isinitAnswersTheBit : Obligations.IsinitAnswersTheBit := by
  intro ch s
  refine ⟨decode_isinit ch, fun ⟨_, hbit⟩ => ?_, fun ⟨_, hbit⟩ => ?_, fun hge => ?_⟩
  · rw [exec_isinit, hbit]; rfl
  · rw [exec_isinit, hbit]; rfl
  · rw [exec_isinit, BitVec.getLsbD_of_ge _ _ hge]; rfl

/-- Settles O17: both runs of `INIT` end with their own mask in the register, and `ISINIT` reads the register
without writing it. -/
theorem registryLaws : Obligations.RegistryLaws := by
  refine ⟨fun mask s hquiet => ?_, fun m1 m2 s hquiet => ?_, fun c d s t hexec => ?_⟩
  · obtain ⟨t, n, hexec, hruns⟩ := exec_init_runs mask hquiet
    refine ⟨t, n, afterInit mask s, hexec, hruns, rfl, fun c => ⟨_, exec_isinit c _, ?_⟩⟩
    have hrange : mask.getLsbD c.toNat = true → c.toNat ≤ 15 := fun hbit =>
      Nat.le_of_lt_succ (BitVec.lt_of_getLsbD hbit)
    simp only [respond_responses, resultResponse_word, and_iff_right_of_imp hrange]
    rfl
  · obtain ⟨t, n, hexec, hruns⟩ := exec_init_runs m1 hquiet
    obtain ⟨t', n', hexec', hruns'⟩ := exec_init_runs m2 (s := afterInit m1 s) hquiet
    obtain ⟨a, k, hexecAlone, hrunsAlone⟩ := exec_init_runs m2 hquiet
    exact ⟨t, n, _, t', n', _, a, k, _, hexec, hruns, rfl, hexec', hruns', rfl, hexecAlone, hrunsAlone,
      rfl, rfl⟩
  · obtain rfl := Host.Outcome.next.inj ((exec_isinit c s).symm.trans hexec)
    rfl

end Sys2Proof.Machine

/-! PROOFS of the conversion statements (spec/41_conversion.md R67, R70, R72): the pulse width as a monotone
function of the place where an angle lies, and the duty value as a quotient that 18 bits hold. -/

namespace Sys2Proof.Machine

open F32

/-! ### The pulse width at a place on the line -/

/-- The magnitude of the clamped angle that lies at `p`, in units (R66). -/
def clampedMag (p : Int) : Nat := (max 0 (min p (180 * one : Nat))).toNat

/-- The pulse width, in microseconds, of an angle that lies at `p` (R67). -/
def pulseAt (p : Int) : Nat := interpolatedMag (clampedMag p) / one

theorem clampedMag_le (p : Int) : clampedMag p ≤ 180 * one := by
  unfold clampedMag
  omega

theorem clampedMag_mono {p q : Int} (h : p ≤ q) : clampedMag p ≤ clampedMag q := by
  unfold clampedMag
  omega

theorem clampedMag_of_nonpos {p : Int} (h : p ≤ 0) : clampedMag p = 0 := by
  unfold clampedMag
  omega

theorem clampedMag_of_180_le {p : Int} (h : ((180 * one : Nat) : Int) ≤ p) :
    clampedMag p = 180 * one := by
  unfold clampedMag
  omega

theorem pulseAt_mono {p q : Int} (h : p ≤ q) : pulseAt p ≤ pulseAt q :=
  Nat.div_le_div_right (interpolatedMag_mono (clampedMag_mono h))

theorem pulseAt_bounds (p : Int) : 500 ≤ pulseAt p ∧ pulseAt p ≤ 2500 := by
  obtain ⟨hlo, hhi⟩ := interpolatedMag_bounds (clampedMag_le p)
  exact ⟨(Nat.le_div_iff_mul_le unit_pos).2 hlo, Nat.div_le_of_le_mul (Nat.mul_comm 2500 one ▸ hhi)⟩

theorem pulseAt_of_nonpos {p : Int} (h : p ≤ 0) : pulseAt p = 500 := by
  rw [pulseAt, clampedMag_of_nonpos h, interpolatedMag_zero, Nat.mul_div_cancel _ unit_pos]

theorem pulseAt_of_180_le {p : Int} (h : ((180 * one : Nat) : Int) ≤ p) : pulseAt p = 2500 := by
  rw [pulseAt, clampedMag_of_180_le h, interpolatedMag_180, Nat.mul_div_cancel _ unit_pos]

theorem toNat_ofNat_pulseAt (p : Int) : (BitVec.ofNat 16 (pulseAt p)).toNat = pulseAt p := by
  have hhi := (pulseAt_bounds p).2
  rw [BitVec.toNat_ofNat, Nat.mod_eq_of_lt (by omega)]

/-! ### The pulse width of an angle -/

/-- The clamped angle as a value, from where the angle lies (R66). -/
theorem ofBits_clamp {a : F32Bits} {p : Int} (h : position (ofBits a) = some p) :
    ∃ neg, ofBits (clamp a) = .fin neg (clampedMag p) ∧ (neg = true → clampedMag p = 0) := by
  obtain ⟨neg, mag, hbits, -, hneg, hmag⟩ := clamp_cases h
  have hmag' : mag = clampedMag p := by
    unfold clampedMag
    omega
  exact ⟨neg, hmag' ▸ hbits, hmag' ▸ hneg⟩

/-- `t3` of R67 truncates to the pulse width at the angle's place. -/
theorem trunc_interpolate {a : F32Bits} {p : Int} (h : position (ofBits a) = some p) :
    trunc (interpolate a) = some (pulseAt p : Int) := by
  obtain ⟨neg, hbits, hneg⟩ := ofBits_clamp h
  rw [trunc, interpolate_eq hbits (clampedMag_le p) hneg]
  rfl

theorem angleToPulse32_of_position {a : F32Bits} {p : Int} (h : position (ofBits a) = some p) :
    angleToPulse32 a = some (BitVec.ofNat 16 (pulseAt p)) := by
  rw [angleToPulse32, trunc_interpolate h, Option.map_some, BitVec.ofInt_natCast]

/-- An angle with a pulse width lies somewhere, and its pulse width is the one at that place. -/
theorem exists_position_of_angleToPulse32 {a : F32Bits} {w : PulseWidth}
    (h : angleToPulse32 a = some w) : ∃ p, position (ofBits a) = some p ∧ w.toNat = pulseAt p := by
  have hnan : isNaN a = false := by
    by_contra hn
    rw [angleToPulse32_of_nan (Bool.eq_true_of_not_eq_false hn)] at h
    cases h
  obtain ⟨p, hp⟩ := isNaN_eq_false_iff.1 hnan
  obtain rfl := Option.some.inj ((angleToPulse32_of_position hp).symm.trans h)
  exact ⟨p, hp, toNat_ofNat_pulseAt p⟩

/-- The formula of R67 with its constants as bit patterns. -/
theorem interpolate_eq_formula (a : F32Bits) :
    interpolate a = add 0x43FA0000 (mul (div (clamp a) 0x43340000) 0x44FA0000) := by
  rw [interpolate, minPulseBits_eq, angleMaxBits_eq, pulseSpanBits_eq]
  rfl

/-- Clamping a second time changes nothing: both bounds lie in the range, and a pattern that passed once, a
NaN included, passes again (R66). -/
theorem clamp_clamp (a : F32Bits) : clamp (clamp a) = clamp a := by
  by_cases hlo : lt a angleMinBits = true
  · have ha : clamp a = angleMinBits := if_pos hlo
    rw [ha]
    decide
  · by_cases hhi : lt angleMaxBits a = true
    · have ha : clamp a = angleMaxBits := (if_neg hlo).trans (if_pos hhi)
      rw [ha]
      decide
    · have ha : clamp a = a := (if_neg hlo).trans (if_neg hhi)
      rw [ha, ha]

theorem angleToPulse32_clamp (a : F32Bits) : angleToPulse32 (clamp a) = angleToPulse32 a := by
  simp only [angleToPulse32, interpolate, clamp_clamp]

theorem position_le_of_lt_eq_false {a b : F32Bits} {p q : Int} (ha : position (ofBits a) = some p)
    (hb : position (ofBits b) = some q) (h : lt b a = false) : p ≤ q :=
  Int.not_lt.1 fun hlt => Bool.false_ne_true (h.symm.trans ((lt_iff hb ha).2 hlt))

theorem position_zero : position (ofBits 0x00000000) = some 0 := by decide

theorem position_180 : position (ofBits 0x43340000) = some ((180 * one : Nat) : Int) := by decide

/-! ### The duty value of a pulse width -/

/-- The quotient of R72 is at most 215544, so 18 bits hold it exactly. -/
theorem toNat_pulseToDuty (p : PulseWidth) : (pulseToDuty p).toNat = p.toNat * 3289 / 1000 := by
  have hp := p.isLt
  rw [pulseToDuty, config_k, config_kdiv, BitVec.toNat_ofNat, Nat.mod_eq_of_lt (by omega)]

/-! ### The statements -/

/-- Settles O19: the formula is `interpolate`, which truncates to the pulse width at the angle's place. -/
theorem angleToPulseFormula : Obligations.AngleToPulseFormula := by
  intro a hnan
  obtain ⟨p, hp⟩ := isNaN_eq_false_iff.1 hnan
  obtain ⟨hlo, hhi⟩ := pulseAt_bounds p
  refine ⟨_, angleToPulse32_of_position hp, ?_⟩
  rw [toNat_ofNat_pulseAt, ← interpolate_eq_formula]
  exact ⟨hlo, hhi, trunc_interpolate hp⟩

/-- Settles O21: the pulse width is `pulseAt` of the angle's place, and each law is one of `pulseAt`, but for
the clamping, which is idempotent on patterns. -/
theorem angleToPulseLaws : Obligations.AngleToPulseLaws := by
  refine ⟨fun a b w v hlt ha hb => ?_, angleToPulse32_clamp, fun a hnan => ?_, fun a hnan hlt => ?_,
    fun a hnan hlt => ?_⟩
  · obtain ⟨p, hp, hw⟩ := exists_position_of_angleToPulse32 ha
    obtain ⟨q, hq, hv⟩ := exists_position_of_angleToPulse32 hb
    rw [hw, hv]
    exact pulseAt_mono (position_le_of_lt_eq_false hp hq hlt)
  · obtain ⟨w, hw, hlo, hhi, -⟩ := angleToPulseFormula a hnan
    exact ⟨w, hw, hlo, hhi⟩
  · obtain ⟨p, hp⟩ := isNaN_eq_false_iff.1 hnan
    have hle := position_le_of_lt_eq_false hp position_zero hlt
    rw [config_angleToPulse, angleToPulse32_of_position hp, pulseAt_of_nonpos hle]
    rfl
  · obtain ⟨p, hp⟩ := isNaN_eq_false_iff.1 hnan
    have hle := position_le_of_lt_eq_false position_180 hp hlt
    rw [config_angleToPulse, angleToPulse32_of_position hp, pulseAt_of_180_le hle]
    rfl

/-- Settles O23: with the duty value as a quotient, each clause is arithmetic on `3289 / 1000`, which lies
between 3 and 4. -/
theorem pulseToDutyIsExact : Obligations.PulseToDutyIsExact := by
  simp only [Obligations.PulseToDutyIsExact, toNat_pulseToDuty, true_and]
  refine ⟨fun p => ?_, fun p q hle => ?_, fun p hlt => ?_⟩
  · have hp := p.isLt
    omega
  · exact Nat.div_le_div_right (Nat.mul_le_mul_right _ hle)
  · have hsucc : (p + 1).toNat = p.toNat + 1 := BitVec.toNat_add_of_lt (Nat.succ_lt_succ hlt)
    rw [hsucc]
    omega

end Sys2Proof.Machine

/-! PROOFS of the servo statements (spec/42_servo_commands.md R80, R92): a command that fails validation, and the
events of a sweep that ends, as a predicate on its loop angle whose induction gives the laws. -/

namespace Sys2Proof.Machine

open F32

/-! ### Failed validation (R80, R104) -/

/-- Each servo command raises what validation answers, whatever its other operands are. -/
theorem exec_servo_of_ne {ch : Channel} {s : State} {i : Instr}
    (hservo : (∃ a, i = .setangle ch a) ∨ (∃ p, i = .setpulse ch p) ∨ (∃ a b d, i = .sweep ch a b d))
    (h : validate ch s ≠ .ok) : exec i s = .next (raise (validate ch s) s) := by
  rcases hservo with ⟨a, rfl⟩ | ⟨p, rfl⟩ | ⟨a, b, d, rfl⟩
  · exact execSetangle_of_ne h
  · exact execSetpulse_of_ne h
  · exact execSweep_of_ne h

/-- Settles O26: validation answers the code, and raising it adds the response and nothing else. -/
theorem failedValidationIsANoOp : Obligations.FailedValidationIsANoOp := by
  refine fun ch s i hservo => ⟨fun hch => ?_, fun hch hmask => ?_⟩
  · have hv : validate ch s = .invalidChannel := validate_eq_invalidChannel_iff.2 hch
    rw [exec_servo_of_ne hservo (by simp [hv]), hv]
    rfl
  · have hv : validate ch s = .notInitialized := validate_eq_notInitialized_iff.2 ⟨hch, hmask⟩
    rw [exec_servo_of_ne hservo (by simp [hv]), hv]
    rfl

/-! ### A binary32 sum is the exact sum, rounded -/

/-- Where the binary32 value nearest to the place `t` lies. -/
def roundPlace (t : Int) : Int := signed (decide (t < 0)) (min limit (roundMag t.natAbs 1))

theorem roundPlace_mono {t t' : Int} (h : t ≤ t') : roundPlace t ≤ roundPlace t' := by
  have hup : 0 ≤ t → roundMag t.natAbs 1 ≤ roundMag t'.natAbs 1 := fun h0 =>
    roundMag_mono (by omega) Nat.one_pos
  have hdown : t' ≤ 0 → roundMag t'.natAbs 1 ≤ roundMag t.natAbs 1 := fun h0 =>
    roundMag_mono (by omega) Nat.one_pos
  simp only [roundPlace, signed, decide_eq_true_eq]
  split <;> split <;> omega

theorem natAbs_signed (neg : Bool) (mag : Nat) : (signed neg mag).natAbs = mag := by
  cases neg <;> simp [signed]

theorem position_finish (neg : Bool) (mag : Nat) :
    position (finish neg mag) = some (signed neg (min limit mag)) := by
  unfold finish
  split
  · next h => rw [Nat.min_eq_right h.le]; rfl
  · next h => rw [Nat.min_eq_left (Nat.not_lt.1 h)]; rfl

theorem roundPlace_zero : roundPlace 0 = 0 := by decide

/-- A finite value needs no rounding. -/
theorem roundPlace_signed {neg : Bool} {mag : Nat} (hrep : Representable mag) (hlt : mag < limit) :
    roundPlace (signed neg mag) = signed neg mag := by
  have hround : roundMag mag 1 = mag := by
    simpa using roundMag_of_representable Nat.one_pos hrep
  rw [roundPlace, natAbs_signed, hround, Nat.min_eq_right hlt.le]
  cases neg
  · simp [signed]
  · simp only [signed, if_true, decide_eq_true_eq]
    split <;> omega

/-- The sum of two finite values lies where the exact sum rounds to. -/
theorem position_addVal_fin (n m : Bool) (x y : Nat) :
    position (ofBits (toBits (addVal (.fin n x) (.fin m y)))) =
      some (roundPlace (signed n x + signed m y)) := by
  simp only [addVal]
  split
  · next h0 =>
    have hzero : Representable 0 := ⟨0, 0, by decide, rfl⟩
    rw [ofBits_toBits_fin hzero (by decide), h0, roundPlace_zero]
    cases n && m <;> rfl
  · rw [ofBits_toBits_finish, position_finish]
    rfl

/-! ### The order of a sweep's direction -/

/-- `x` comes no later than `y` in a sweep's direction. -/
def InOrder {α : Type} [LE α] (d : Direction) (x y : α) : Prop :=
  match d with
  | .up => x ≤ y
  | .down => y ≤ x

theorem InOrder.refl (d : Direction) (x : Int) : InOrder d x x := by
  cases d <;> exact Int.le_refl x

theorem InOrder.trans {d : Direction} {x y z : Int} (h : InOrder d x y) (h' : InOrder d y z) :
    InOrder d x z := by
  cases d
  · exact Int.le_trans h h'
  · exact Int.le_trans h' h

theorem inOrder_of_beforeEnd {d : Direction} {a stop : F32Bits} {p q : Int}
    (ha : position (ofBits a) = some p) (hstop : position (ofBits stop) = some q)
    (h : beforeEnd d a stop = true) : InOrder d p q := by
  cases d
  · exact ((lt_iff ha hstop).1 h).le
  · exact ((lt_iff hstop ha).1 h).le

/-- The value one step in a direction adds (R86). -/
def stepVal : Direction → Val
  | .up => .fin false one
  | .down => .fin true one

theorem advanceAngle_eq (d : Direction) (a : F32Bits) :
    advanceAngle d a = toBits (addVal (ofBits a) (stepVal d)) := by
  cases d <;> simp only [advanceAngle, add, sub, subVal, ofBits_step] <;> rfl

/-- One step never moves the loop angle against its direction, and makes no NaN of it: rounding is monotone and
fixes the angle itself, and an infinity stays where it is (R86). -/
theorem position_advanceAngle (d : Direction) {a : F32Bits} {p : Int}
    (ha : position (ofBits a) = some p) :
    ∃ q, position (ofBits (advanceAngle d a)) = some q ∧ InOrder d p q := by
  rw [advanceAngle_eq]
  rcases ofBits_cases a with hnan | ⟨neg, hinf⟩ | ⟨neg, mag, hrep, hlt, hfin⟩
  · rw [hnan] at ha
    cases ha
  · have hstay : addVal (.inf neg) (stepVal d) = .inf neg := by cases d <;> rfl
    rw [hinf] at ha
    rw [hinf, hstay, ofBits_toBits_inf]
    exact ⟨p, ha, .refl d p⟩
  · rw [hfin] at ha ⊢
    obtain rfl := Option.some.inj ha
    have hfix := roundPlace_signed (neg := neg) hrep hlt
    cases d
    · refine ⟨_, position_addVal_fin neg false mag one, ?_⟩
      have hle : signed neg mag ≤ signed neg mag + signed false one := by simp [signed]
      exact hfix.symm.trans_le (roundPlace_mono hle)
    · refine ⟨_, position_addVal_fin neg true mag one, ?_⟩
      have hle : signed neg mag + signed true one ≤ signed neg mag := by simp [signed]
      exact (roundPlace_mono hle).trans_eq hfix

/-! ### The duty value at a place on the line -/

/-- The duty value of an angle that lies at `p` (R72, R76). -/
def dutyAt (p : Int) : Nat := pulseAt p * 3289 / 1000

theorem dutyAt_inOrder {d : Direction} {p q : Int} (h : InOrder d p q) :
    InOrder d (dutyAt p) (dutyAt q) := by
  cases d <;> exact Nat.div_le_div_right (Nat.mul_le_mul_right _ (pulseAt_mono h))

theorem angleToDuty_of_position {a : F32Bits} {p : Int} (h : position (ofBits a) = some p) :
    ∃ v, angleToDuty a = some v ∧ v.toNat = dutyAt p := by
  refine ⟨pulseToDuty (BitVec.ofNat 16 (pulseAt p)), ?_, ?_⟩
  · rw [angleToDuty, config_angleToPulse, angleToPulse32_of_position h, Option.map_some]
  · rw [toNat_pulseToDuty, toNat_ofNat_pulseAt, dutyAt]

theorem toNat_of_angleToDuty {a : F32Bits} {p : Int} {v : DutyValue}
    (h : position (ofBits a) = some p) (hv : angleToDuty a = some v) : v.toNat = dutyAt p := by
  obtain ⟨w, hw, hat⟩ := angleToDuty_of_position h
  obtain rfl := Option.some.inj (hw.symm.trans hv)
  exact hat

/-! ### The events of a sweep that ends -/

/-- `es` are the events of a sweep towards `stop` that ends, from the loop test at the loop angle `a` on (R86 to
R88). -/
inductive SweepEvents (ch : Channel) (delay : DelayMs) (d : Direction) (stop : F32Bits) :
    F32Bits → List Event → Prop
  /-- The end is reached: the final call. -/
  | final {a : F32Bits} {v : DutyValue} (hend : beforeEnd d a stop = false)
      (hv : angleToDuty stop = some v) : SweepEvents ch delay d stop a [.writeDuty ch v]
  /-- A loop step, and what comes after it. -/
  | loop {a : F32Bits} {v : DutyValue} {es : List Event} (hbefore : beforeEnd d a stop = true)
      (hv : angleToDuty a = some v) (hrest : SweepEvents ch delay d stop (advanceAngle d a) es) :
      SweepEvents ch delay d stop a (.writeDuty ch v :: .sleep delay :: es)

section

variable {ch : Channel} {delay : DelayMs} {d : Direction} {stop a : F32Bits} {es : List Event}

theorem SweepEvents.getLast? (h : SweepEvents ch delay d stop a es) :
    ∃ v, angleToDuty stop = some v ∧ es.getLast? = some (.writeDuty ch v) := by
  induction h with
  | final hend hv => exact ⟨_, hv, rfl⟩
  | loop hbefore hv hrest ih =>
    obtain ⟨v, hstop, hlast⟩ := ih
    exact ⟨v, hstop, by simp [List.getLast?_cons, hlast]⟩

theorem SweepEvents.eq_of_not_beforeEnd (h : SweepEvents ch delay d stop a es)
    (hend : beforeEnd d a stop = false) {v : DutyValue} (hv : angleToDuty stop = some v) :
    es = [.writeDuty ch v] := by
  cases h with
  | final _ hv' => rw [Option.some.inj (hv.symm.trans hv')]
  | loop hbefore => simp [hend] at hbefore

@[simp] theorem dutiesWritten_writeDuty_cons (ch : Channel) (v : DutyValue) (es : List Event) :
    dutiesWritten (.writeDuty ch v :: es) = v.toNat :: dutiesWritten es := rfl

@[simp] theorem dutiesWritten_sleep_cons (delay : DelayMs) (es : List Event) :
    dutiesWritten (.sleep delay :: es) = dutiesWritten es := rfl

@[simp] theorem dutiesWritten_nil : dutiesWritten [] = [] := rfl

/-- A place no later than both the loop angle and the end bounds every duty value still to be written. -/
theorem SweepEvents.inOrder_of_mem (h : SweepEvents ch delay d stop a es) {x p q : Int}
    (ha : position (ofBits a) = some p) (hstop : position (ofBits stop) = some q)
    (hxp : InOrder d x p) (hxq : InOrder d x q) :
    ∀ v ∈ dutiesWritten es, InOrder d (dutyAt x) v := by
  induction h generalizing p with
  | final hend hv =>
    simp only [dutiesWritten_writeDuty_cons, dutiesWritten_nil, List.mem_singleton, forall_eq]
    rw [toNat_of_angleToDuty hstop hv]
    exact dutyAt_inOrder hxq
  | loop hbefore hv hrest ih =>
    obtain ⟨p', hp', hpp'⟩ := position_advanceAngle d ha
    simp only [dutiesWritten_writeDuty_cons, dutiesWritten_sleep_cons, List.forall_mem_cons]
    rw [toNat_of_angleToDuty ha hv]
    exact ⟨dutyAt_inOrder hxp, ih hp' (hxp.trans hpp')⟩

/-- The duty values of a sweep are monotone in its direction (R92). -/
theorem SweepEvents.pairwise (h : SweepEvents ch delay d stop a es) {p q : Int}
    (ha : position (ofBits a) = some p) (hstop : position (ofBits stop) = some q) :
    (dutiesWritten es).Pairwise (InOrder d) := by
  induction h generalizing p with
  | final hend hv => exact List.pairwise_singleton _ _
  | loop hbefore hv hrest ih =>
    obtain ⟨p', hp', hpp'⟩ := position_advanceAngle d ha
    rw [dutiesWritten_writeDuty_cons, dutiesWritten_sleep_cons, toNat_of_angleToDuty ha hv]
    exact List.pairwise_cons.2
      ⟨hrest.inOrder_of_mem hp' hstop hpp' (inOrder_of_beforeEnd ha hstop hbefore), ih hp'⟩

end

/-! ### A run that ends -/

/-- An idle block with nothing presented stays as it is. -/
theorem eq_of_runs_idle {n : Nat} {s u : State} (hidle : s.phase = .idle) (hhost : s.host = [])
    (h : Runs n s u) : u = s := by
  induction n with
  | zero => exact (runs_zero.1 h).symm
  | succ n ih =>
    obtain ⟨t, hstep, hruns⟩ := runs_succ_iff.1 h
    have hstay : step s = .next s := by simp [step, stepBlock, hhost, tick, hidle]
    obtain rfl := Host.Outcome.next.inj (hstay.symm.trans hstep)
    exact ih hruns

/-- A run that ends has made the first micro-operation of its list. -/
theorem exists_runs_of_runs_begin_cons {n : Nat} {s u : State} (hquiet : Quiet s) {op : MicroOp}
    {ops : List MicroOp} (h : Runs n (begin (op :: ops) s) u) (hidle : u.phase = .idle) :
    ∃ m, n = m + 1 ∧ Runs m (runOp op (begin ops s)) u := by
  cases n with
  | zero =>
    obtain rfl := runs_zero.1 h
    cases hidle
  | succ m =>
    obtain ⟨t, hstep, hruns⟩ := runs_succ_iff.1 h
    obtain rfl := Host.Outcome.next.inj ((step_begin_cons hquiet op ops).symm.trans hstep)
    exact ⟨m, rfl, hruns⟩

theorem setAngleOp_state_of_duty {ch : Channel} {a : F32Bits} {s : State} {v : DutyValue}
    (hok : validate ch s = .ok) (hv : angleToDuty a = some v) :
    (setAngleOp ch a s).state = emit (.writeDuty ch v) s := by
  obtain ⟨p, hp, rfl⟩ := Option.map_eq_some_iff.1 hv
  rw [setAngleOp_of_some hok hp]

theorem runOp_sweepWrite {s : State} {v : DutyValue} (hok : validate s.swCh s = .ok)
    (hv : angleToDuty s.swA = some v) (ops : List MicroOp) :
    runOp .sweepWrite (begin ops s) = begin ops (emit (.writeDuty s.swCh v) s) :=
  setAngleOp_state_of_duty (s := begin ops s) hok hv

theorem runOp_sweepFinal {s : State} {v : DutyValue} (hok : validate s.swCh s = .ok)
    (hv : angleToDuty s.swEnd = some v) (ops : List MicroOp) :
    runOp .sweepFinal (begin ops s) = begin ops (emit (.writeDuty s.swCh v) s) :=
  setAngleOp_state_of_duty (s := begin ops s) hok hv

/-- The state after one loop step that wrote `v`, but for what is pending (R86). -/
def afterLoopStep (d : Direction) (v : DutyValue) (s : State) : State :=
  { s with
    trace := s.trace ++ [.writeDuty s.swCh v, .sleep s.swDly]
    swA := advanceAngle d s.swA }

theorem runOp_sweepSleep (d : Direction) (v : DutyValue) (s : State) :
    runOp (.sweepSleep d) (begin [] (emit (.writeDuty s.swCh v) s)) =
      begin (sweepLoop d (advanceAngle d s.swA) s.swEnd) (afterLoopStep d v s) := by
  simp [runOp, sleepAndAdvance, afterLoopStep, begin, emit]

theorem sweepLoop_of_beforeEnd {d : Direction} {a stop : F32Bits} (h : beforeEnd d a stop = true) :
    sweepLoop d a stop = [.sweepWrite, .sweepSleep d] := if_pos h

theorem sweepLoop_of_not_beforeEnd {d : Direction} {a stop : F32Bits}
    (h : beforeEnd d a stop = false) :
    sweepLoop d a stop = [.sweepFinal, .respond okResponse] := by
  rw [sweepLoop, h]
  rfl

/-- What a sweep that has ended leaves, counted from its loop test on: its events and the response `OK`. -/
theorem exists_sweepEvents_of_runs {n : Nat} {s u : State} {d : Direction} {p q : Int}
    (hhost : s.host = []) (hok : validate s.swCh s = .ok)
    (ha : position (ofBits s.swA) = some p) (hstop : position (ofBits s.swEnd) = some q)
    (hruns : Runs n (begin (sweepLoop d s.swA s.swEnd) s) u) (hidle : u.phase = .idle) :
    ∃ es, SweepEvents s.swCh s.swDly d s.swEnd s.swA es ∧ u.trace = s.trace ++ es ∧
      u.initMask = s.initMask ∧ u.responses = s.responses ++ [okResponse.word] := by
  induction n using Nat.strong_induction_on generalizing s p with
  | _ n ih =>
    have hquiet : Quiet s := .inl hhost
    cases hbefore : beforeEnd d s.swA s.swEnd with
    | false =>
      obtain ⟨v, hv, -⟩ := angleToDuty_of_position hstop
      rw [sweepLoop_of_not_beforeEnd hbefore] at hruns
      obtain ⟨m, -, hwrite⟩ := exists_runs_of_runs_begin_cons hquiet hruns hidle
      rw [runOp_sweepFinal hok hv] at hwrite
      obtain ⟨m, -, hrespond⟩ :=
        exists_runs_of_runs_begin_cons (s := emit (.writeDuty s.swCh v) s) hquiet hwrite hidle
      obtain rfl := eq_of_runs_idle
        (s := respond okResponse (begin [] (emit (.writeDuty s.swCh v) s))) rfl hhost hrespond
      exact ⟨_, .final hbefore hv, rfl, rfl, rfl⟩
    | true =>
      obtain ⟨v, hv, -⟩ := angleToDuty_of_position ha
      obtain ⟨p', hp', -⟩ := position_advanceAngle d ha
      rw [sweepLoop_of_beforeEnd hbefore] at hruns
      obtain ⟨m, rfl, hwrite⟩ := exists_runs_of_runs_begin_cons hquiet hruns hidle
      rw [runOp_sweepWrite hok hv] at hwrite
      obtain ⟨m, rfl, hsleep⟩ :=
        exists_runs_of_runs_begin_cons (s := emit (.writeDuty s.swCh v) s) hquiet hwrite hidle
      rw [runOp_sweepSleep] at hsleep
      obtain ⟨es, hes, htrace, hrest⟩ :=
        ih m (by omega) (s := afterLoopStep d v s) hhost hok hp' hstop hsleep
      exact ⟨_, .loop hbefore hv hes, by simpa [afterLoopStep] using htrace, hrest⟩

/-! ### Entry -/

/-- The direction in which the loop of a sweep is tested; with equal angles either would do (R84). -/
def entryDirection (start stop : F32Bits) : Direction := if lt start stop then .up else .down

/-- A sweep begins at the test of its loop, with equal angles too (R84). -/
theorem sweepStart_eq_sweepLoop (a b : F32Bits) :
    sweepStart a b = sweepLoop (entryDirection a b) a b := by
  rw [sweepStart_eq]
  cases hup : lt a b with
  | true => simp [entryDirection, hup, sweepLoop, beforeEnd]
  | false => simp [entryDirection, hup, sweepLoop, beforeEnd, sweepEnd]

theorem lt_eq_false_of_lt {a b : F32Bits} {p q : Int} (ha : position (ofBits a) = some p)
    (hb : position (ofBits b) = some q) (h : lt b a = true) : lt a b = false :=
  Bool.eq_false_iff.2 fun hlt => ((lt_iff ha hb).1 hlt).asymm ((lt_iff hb ha).1 h)

/-- A sweep that passes validation and answers a next state has no NaN among its angles, and begins its loop
(R84, R85, R90 item 1). -/
theorem exists_position_of_exec_sweep {ch : Channel} {a b : F32Bits} {d : DelayMs} {s t : State}
    (hok : validate ch s = .ok) (h : exec (.sweep ch a b d) s = .next t) :
    ∃ p q, position (ofBits a) = some p ∧ position (ofBits b) = some q ∧
      t = begin (sweepLoop (entryDirection a b) a b) (latchSweep ch a b d s) := by
  by_cases hnan : isNaN a = true ∨ isNaN b = true
  · cases (execSweep_of_nan hok hnan).symm.trans h
  · simp only [not_or, Bool.not_eq_true] at hnan
    obtain ⟨ha, hb⟩ := hnan
    obtain rfl := Host.Outcome.next.inj ((execSweep_of_ok hok ha hb).symm.trans h)
    obtain ⟨p, hp⟩ := isNaN_eq_false_iff.1 ha
    obtain ⟨q, hq⟩ := isNaN_eq_false_iff.1 hb
    exact ⟨p, q, hp, hq, by rw [sweepStart_eq_sweepLoop]⟩

/-- Settles O46: each law is one of the events a sweep that ended has issued. -/
theorem sweepLaws : Obligations.SweepLaws := by
  intro ch a b d s t u k hhost hch hmask hexec hruns hidle
  have hok : validate ch s = .ok := validate_eq_ok_iff.2 ⟨hch, hmask⟩
  obtain ⟨p, q, ha, hb, rfl⟩ := exists_position_of_exec_sweep hok hexec
  obtain ⟨es, hes, htrace, hinit, hresp⟩ :=
    exists_sweepEvents_of_runs (s := latchSweep ch a b d s) hhost hok ha hb hruns hidle
  have hmono := hes.pairwise ha hb
  obtain ⟨v, hv, hlast⟩ := hes.getLast?
  refine ⟨es, v, htrace, hv, hlast, fun hup => ?_, fun hdown => ?_, fun hup hdown => ?_, hinit, hresp⟩
  · rwa [entryDirection, hup] at hmono
  · rwa [entryDirection, lt_eq_false_of_lt ha hb hdown] at hmono
  · refine hes.eq_of_not_beforeEnd ?_ hv
    rw [entryDirection, hup]
    exact hdown

end Sys2Proof.Machine

/-! PROOFS of the statements on conditions (spec/60_exceptions.md R101, R102): a command raises a condition exactly
when it is a servo command whose validation answers that condition. -/

namespace Sys2Proof.Machine

/-! ### A raise is told apart from every other outcome (R46, R104) -/

theorem respond_injective {r r' : Response} {s : State} (h : respond r s = respond r' s) : r = r' := by
  have hresponses : s.responses ++ [r.word] = s.responses ++ [r'.word] := congrArg State.responses h
  exact response_word_injective (List.singleton_inj.1 (List.append_cancel_left hresponses))

theorem raise_injective {c c' : Status} {s : State} (h : raise c s = raise c' s) : c = c' :=
  congrArg Response.status (respond_injective h)

/-- A raise leaves the block idle, where a command that goes on leaves it busy (R16, R104). -/
theorem raise_ne_begin {c : Status} {s u : State} {ops : List MicroOp} : raise c s ≠ begin ops u :=
  fun h => Phase.noConfusion (congrArg State.phase h)

/-! ### Which commands raise a condition -/

/-- `INIT` goes on, `ISINIT` answers OK, and a servo command that passes validation goes on or is refused: only
failed validation raises (R80, R100). -/
theorem exec_eq_raise_iff {c : Status} (hc : c ≠ .ok) {i : Instr} {s : State} :
    exec i s = .next (raise c s) ↔
      ∃ ch, validate ch s = c ∧
        ((∃ a, i = .setangle ch a) ∨ (∃ p, i = .setpulse ch p) ∨ (∃ a b d, i = .sweep ch a b d)) := by
  constructor
  · intro h
    obtain ⟨_, _, hinit⟩ | ⟨_, _, hisinit⟩ | ⟨ch, hservo, _, hraise⟩ | ⟨_, _, _, _, _, _, hangle⟩ |
      ⟨_, _, _, _, _, hdraw⟩ | ⟨_, _, _, _, hpulse⟩ | ⟨_, _, _, _, _, _, _, _, hsweep⟩ := exec_cases h
    · exact absurd hinit raise_ne_begin
    · exact absurd (congrArg Response.status (respond_injective hisinit)) hc
    · exact ⟨ch, (raise_injective hraise).symm, hservo⟩
    · exact absurd hangle raise_ne_begin
    · exact absurd hdraw raise_ne_begin
    · exact absurd hpulse raise_ne_begin
    · exact absurd hsweep raise_ne_begin
  · rintro ⟨ch, rfl, hservo⟩
    exact exec_servo_of_ne hservo hc

/-! ### The statements -/

/-- Settles O27: validation answers `InvalidChannel` exactly for a channel of 16 or more. -/
theorem invalidChannelExactlyWhen : Obligations.InvalidChannelExactlyWhen := fun i s => by
  simp only [exec_eq_raise_iff (c := .invalidChannel) (by decide), validate_eq_invalidChannel_iff]

/-- Settles O28: validation answers `NotInitialized` exactly for a channel in range whose mask bit is 0. -/
theorem notInitializedExactlyWhen : Obligations.NotInitializedExactlyWhen := fun i s => by
  simp only [exec_eq_raise_iff (c := .notInitialized) (by decide), validate_eq_notInitialized_iff,
    Nat.lt_succ_iff, maskBit, and_assoc]

end Sys2Proof.Machine

/-! PROOFS of the statements on reset (spec/70_reset_and_hazards.md R130 to R132): the reset input comes before
whatever the block is doing. -/

namespace Sys2Proof.Machine

/-- The reset input is served in every state, a command executing or not (R130). -/
theorem step_of_reset {s : State} {rest : List HostInput} (hhost : s.host = .reset :: rest) :
    step s = .next (applyReset { s with host := rest }) := by
  simp [step, stepBlock, hhost]

/-- Settles O58: the step is `applyReset`, which gives the block its reset values and keeps what has crossed the
ports. -/
theorem resetAbandonsTheCommand : Obligations.ResetAbandonsTheCommand := fun _ _ hhost =>
  ⟨_, step_of_reset hhost, applyReset_initMask _, applyReset_phase _, applyReset_pending _,
    applyReset_trace _, applyReset_responses _, applyReset_host _⟩

end Sys2Proof.Machine

/-! PROOFS of the encoding statements on words, bytes and calls (spec/20_memory.md R27, spec/30_encoding.md R40 to
R52): a command decodes from the fields it is encoded in, and the assembler is the encoder behind a range check. -/

namespace Sys2Proof

/-- A command's word holds exactly the fields its row of the decoder asks for (R40 to R42). -/
theorem decode_encode (i : Instr) : decode (encode i) = .ok i := by
  rw [decode_eq_ok_iff]
  cases i <;> simp [encode]

/-- Settles O1: the encoder fills the fields the decoder reads, and leaves the others zero. -/
theorem everyCommandDecodesFromItsWord : Obligations.EveryCommandDecodesFromItsWord :=
  decode_encode

/-! ### Bytes (R27) -/

/-- The bytes of a word from bit `k` on are the little-endian digits of what lies there. -/
theorem natOfBytes_extractLsb' (w : CommandWord) (n k : Nat) :
    natOfBytes ((List.range n).map fun i => w.extractLsb' (k + 8 * i) 8) =
      w.toNat / 2 ^ k % 2 ^ (8 * n) := by
  induction n generalizing k with
  | zero => simp [natOfBytes, Nat.mod_one]
  | succ n ih =>
    have hshift : ∀ i, k + 8 * (i + 1) = k + 8 + 8 * i := by omega
    have hsplit : 2 ^ (8 * (n + 1)) = 256 * 2 ^ (8 * n) := by rw [Nat.mul_succ, pow_add]; ring
    rw [List.range_succ_eq_map, List.map_cons, List.map_map, natOfBytes]
    simp only [Function.comp_def, hshift, ih]
    rw [hsplit, Nat.mod_mul, Nat.div_div_eq_div_mul, pow_add, BitVec.extractLsb'_toNat,
      Nat.shiftRight_eq_div_pow]
    rfl

theorem natOfBytes_bytesOfWord (w : CommandWord) : natOfBytes (bytesOfWord w) = w.toNat := by
  have h := natOfBytes_extractLsb' w 16 0
  simp only [Nat.zero_add, Nat.pow_zero, Nat.div_one] at h
  exact h.trans (Nat.mod_eq_of_lt w.isLt)

theorem length_bytesOfWord (w : CommandWord) : (bytesOfWord w).length = 16 := by
  simp [bytesOfWord]

theorem decodeBytes_bytesOfWord (w : CommandWord) (rest : List Byte) :
    decodeBytes (bytesOfWord w ++ rest) = some (decode w, rest) := by
  have hlen := length_bytesOfWord w
  have hlong : ¬ (bytesOfWord w ++ rest).length < 16 := by simp [hlen]
  rw [decodeBytes, if_neg hlong, List.take_left' hlen, List.drop_left' hlen, natOfBytes_bytesOfWord,
    BitVec.ofNat_toNat, BitVec.setWidth_eq]

/-- Settles O5: sixteen little-endian digits give back a 128-bit number. -/
theorem wordsAreLittleEndianBytes : Obligations.WordsAreLittleEndianBytes := fun w rest =>
  ⟨length_bytesOfWord w, rfl, natOfBytes_bytesOfWord w, decodeBytes_bytesOfWord w rest⟩

/-- Settles O4: one word of each row, read by the decoder. -/
theorem specWordsDecode : Obligations.SpecWordsDecode := by
  unfold Obligations.SpecWordsDecode
  decide

end Sys2Proof

namespace Sys2Proof.Machine

/-! ### The assembler (R50 to R52) -/

/-! What each call assembles to, with R50's ranges as numbers. -/

theorem assemble_init (m : Nat) :
    assemble (.init m) = if m < 65536 then some (encode (.init (BitVec.ofNat 16 m))) else none := by
  simp only [assemble, commandOfCall, Call.wellFormed, decide_eq_true_eq]
  exact apply_ite (Option.map encode) _ _ _

theorem assemble_isInitialized (c : Nat) :
    assemble (.isInitialized c) =
      if c < 256 then some (encode (.isinit (BitVec.ofNat 8 c))) else none := by
  simp only [assemble, commandOfCall, Call.wellFormed, decide_eq_true_eq]
  exact apply_ite (Option.map encode) _ _ _

theorem assemble_setAngle (c : Nat) (a : Decimal) :
    assemble (.setAngle c a) =
      if c < 256 ∧ a.den ≠ 0 then some (encode (.setangle (BitVec.ofNat 8 c) (decimalBits a)))
      else none := by
  simp only [assemble, commandOfCall, Call.wellFormed, Decimal.wellFormed, Bool.and_eq_true,
    decide_eq_true_eq, bne_iff_ne]
  exact apply_ite (Option.map encode) _ _ _

theorem assemble_setPulseUs (c p : Nat) :
    assemble (.setPulseUs c p) =
      if c < 256 ∧ p < 65536 then some (encode (.setpulse (BitVec.ofNat 8 c) (BitVec.ofNat 16 p)))
      else none := by
  simp only [assemble, commandOfCall, Call.wellFormed, Bool.and_eq_true, decide_eq_true_eq]
  exact apply_ite (Option.map encode) _ _ _

theorem assemble_sweep (c : Nat) (a b : Decimal) (d : Nat) :
    assemble (.sweep c a b d) =
      if ((c < 256 ∧ a.den ≠ 0) ∧ b.den ≠ 0) ∧ d < 4294967296 then
        some (encode (.sweep (BitVec.ofNat 8 c) (decimalBits a) (decimalBits b) (BitVec.ofNat 32 d)))
      else none := by
  simp only [assemble, commandOfCall, Call.wellFormed, Decimal.wellFormed, Bool.and_eq_true,
    decide_eq_true_eq, bne_iff_ne]
  exact apply_ite (Option.map encode) _ _ _

theorem decimalBits_nine_tenths : decimalBits ⟨false, 9, 10⟩ = 0x3F666666 := by decide

theorem decimalBits_center : decimalBits ⟨false, constants.centerAngle, 1⟩ = 0x42B40000 := by decide

theorem assemble_centerCall {c : Nat} (h : c < 256) :
    assemble (centerCall c) = some (encode (.setangle (BitVec.ofNat 8 c) 0x42B40000)) := by
  rw [centerCall, assemble_setAngle, decimalBits_center]
  exact if_pos ⟨h, Nat.one_ne_zero⟩

/-- Settles O6: a call has a word exactly when R50's ranges hold of its operands. -/
theorem assemblerGivesTheCallsWord : Obligations.AssemblerGivesTheCallsWord := by
  simp only [Obligations.AssemblerGivesTheCallsWord, assemble_init, assemble_isInitialized,
    assemble_setAngle, assemble_setPulseUs, assemble_sweep]
  refine ⟨fun m hm => if_pos hm, fun c hc => if_pos hc, fun c a hc ha => if_pos ⟨hc, ha⟩,
    fun c p hc hp => if_pos ⟨hc, hp⟩, fun c a b d hc ha hb hd => if_pos ⟨⟨⟨hc, ha⟩, hb⟩, hd⟩,
    decimalBits_nine_tenths, fun c => assemble_centerCall, fun m hm => if_neg hm.not_gt,
    fun c hc => ⟨if_neg hc.not_gt, fun a => if_neg fun h => hc.not_gt h.1,
      fun p => if_neg fun h => hc.not_gt h.1, fun a b d => if_neg fun h => hc.not_gt h.1.1.1⟩,
    fun c p hp => if_neg fun h => hp.not_gt h.2, fun c a b d hd => if_neg fun h => hd.not_gt h.2,
    fun c a ha => if_neg fun h => h.2 ha, fun c a b d hab => if_neg fun h => ?_⟩
  exact hab.elim h.1.1.2 h.1.2

end Sys2Proof.Machine

/-! PROOFS of the statements on the command port and the response port (spec/30_encoding.md R46, R47,
spec/60_exceptions.md R109): what a step does under each action of the host, and which responses a command owes. -/

namespace Sys2Proof.Machine

/-! ### One step, by the host's next action (R47) -/

theorem step_of_wait {s : State} {rest : List HostInput} (h : s.host = .wait :: rest) :
    step s = tick { s with host := rest } := by
  simp [step, stepBlock, h]

theorem tick_of_idle {s : State} (h : s.phase = .idle) : tick s = .next s := by
  simp [tick, h]

theorem tick_of_busy {s : State} (h : s.phase = .busy) : tick s = advance s := by
  simp [tick, h]

theorem acceptWord_of_ok {w : CommandWord} {i : Instr} (h : decode w = .ok i) (rest : List HostInput)
    (s : State) : acceptWord w rest s = exec i (accept rest s) := by
  simp [acceptWord, h]

/-- The sequencer reads nothing of the host, and leaves it. -/
theorem advance_host {s : State} {op : MicroOp} {rest : List MicroOp} (h : s.pending = op :: rest)
    (host : List HostInput) :
    advance { s with host := host } =
      .next { runOp op { s with pending := rest } with host := host } := by
  rw [advance_cons (s := { s with host := host }) h]
  exact congrArg Host.Outcome.next (runOp_host op { s with pending := rest } host)

theorem Phase.idle_or_busy (p : Phase) : p = .idle ∨ p = .busy := by
  cases p
  · exact .inl rfl
  · exact .inr rfl

/-- Without a word to accept, a step does the same whatever the host does next, and is never refused. -/
theorem tick_host_cases (s : State) (host : List HostInput) :
    (∃ t, tick { s with host := [] } = .next t ∧ tick { s with host := host } = .next { t with host := host }) ∨
    (∃ f, tick { s with host := [] } = .fault f ∧ tick { s with host := host } = .fault f) := by
  rcases s.phase.idle_or_busy with hidle | hbusy
  · exact .inl ⟨_, tick_of_idle hidle, tick_of_idle hidle⟩
  · rw [tick_of_busy (s := { s with host := [] }) hbusy, tick_of_busy (s := { s with host := host }) hbusy]
    by_cases hpending : s.pending = []
    · exact .inr ⟨.sequencerLost, by simp [advance, hpending], by simp [advance, hpending]⟩
    · obtain ⟨op, rest, hcons⟩ := List.exists_cons_of_ne_nil hpending
      exact .inl ⟨_, advance_host hcons [], advance_host hcons host⟩

@[simp] theorem runOp_host_eq (op : MicroOp) (s : State) : (runOp op s).host = s.host :=
  (congrArg State.host (runOp_host op s s.host) :)

theorem Inv.pending_ne_nil {s : State} (h : Inv s) (hbusy : s.phase = .busy) : s.pending ≠ [] := fun hp =>
  Phase.noConfusion (hbusy.symm.trans (h.phase_idle_iff.2 hp))

theorem Inv.busy_of_pending_ne_nil {s : State} (h : Inv s) (hp : s.pending ≠ []) : s.phase = .busy :=
  s.phase.idle_or_busy.resolve_left fun hidle => hp (h.phase_idle_iff.1 hidle)

/-- Settles O7: an idle block accepts the presented word and dispatches on what it decodes to. -/
theorem stepRunsTheDecodedCommand : Obligations.StepRunsTheDecodedCommand := by
  intro s w rest i hidle hhost hdecode
  rw [step_of_presented hidle hhost, acceptWord_of_ok hdecode]
  rfl

/-- Settles O9: with and without the held word the step is the block's next micro-operation, which does not
touch the host. -/
theorem busyBlockDoesNotAccept : Obligations.BusyBlockDoesNotAccept := by
  intro s w rest hinv hbusy hhost
  obtain ⟨op, ops, hpending⟩ := List.exists_cons_of_ne_nil (hinv.pending_ne_nil hbusy)
  have hheld := step_of_quiet (.inr ⟨w, rest, hhost⟩) hbusy hpending
  have hnothing := step_of_quiet (s := { s with host := [] }) (.inl rfl) hbusy hpending
  refine ⟨_, hheld, (runOp_host_eq _ _).trans hhost, hnothing.trans ?_⟩
  exact congrArg Host.Outcome.next (runOp_host op { s with pending := ops } [])

/-- Settles O10: an idle block ticks to itself. -/
theorem idleBlockWaits : Obligations.IdleBlockWaits := fun s hidle =>
  ⟨fun hhost => by simp [step, stepBlock, hhost, tick_of_idle hidle],
    fun rest hhost => (step_of_wait hhost).trans (tick_of_idle hidle)⟩

/-- Settles O11: with a wait or with nothing presented the step is a tick, which does the same under either. -/
theorem waitingPassesTheStep : Obligations.WaitingPassesTheStep := by
  intro s rest hhost
  rw [step_of_wait hhost]
  have hnothing : step { s with host := [] } = tick { s with host := [] } := rfl
  rw [hnothing]
  obtain ⟨t, hnone, hsome⟩ | ⟨f, hnone, hsome⟩ := tick_host_cases s rest <;> rw [hnone, hsome]
  · refine ⟨fun u hu => ?_, fun f hf => ?_, fun r hr => ?_⟩
    · obtain rfl := Host.Outcome.next.inj hu
      rfl
    · cases hf
    · cases hr
  · refine ⟨fun u hu => ?_, fun f hf => hf, fun r hr => ?_⟩
    · cases hu
    · cases hr

end Sys2Proof.Machine

/-! PROOFS of the remaining conversion statements (spec/41_conversion.md R66 to R76, spec/42_servo_commands.md R83):
the clamp, which angles have a pulse width, and the ranges of pulse widths and duty values. -/

namespace Sys2Proof.Machine

open F32

/-! ### The clamp (R66) -/

/-- The clamp with its bounds as bit patterns. -/
theorem clamp_eq (a : F32Bits) :
    clamp a = if lt a 0x00000000 then 0x00000000 else if lt 0x43340000 a then 0x43340000 else a := by
  rw [clamp, angleMinBits_eq, angleMaxBits_eq]
  rfl

theorem clamp_of_lt_zero {a : F32Bits} (h : lt a 0x00000000 = true) : clamp a = 0x00000000 := by
  rw [clamp_eq, if_pos h]

/-- An angle above 180 is not below 0. -/
theorem lt_zero_eq_false_of_180_lt {a : F32Bits} (h : lt 0x43340000 a = true) :
    lt a 0x00000000 = false := by
  cases ha : position (ofBits a) with
  | none => exact lt_eq_false_of_nan_left (position_eq_none_iff.1 ha)
  | some p =>
    have hup := (lt_iff position_180 ha).1 h
    exact Bool.eq_false_iff.2 fun hlo => by
      have := (lt_iff ha position_zero).1 hlo
      omega

theorem clamp_of_180_lt {a : F32Bits} (h : lt 0x43340000 a = true) : clamp a = 0x43340000 := by
  rw [clamp_eq, lt_zero_eq_false_of_180_lt h, if_neg Bool.false_ne_true, if_pos h]

theorem clamp_of_between {a : F32Bits} (hlo : lt a 0x00000000 = false)
    (hhi : lt 0x43340000 a = false) : clamp a = a := by
  rw [clamp_eq, hlo, hhi, if_neg Bool.false_ne_true, if_neg Bool.false_ne_true]

/-- Settles O18: the two comparisons decide, and with a NaN both are false. -/
theorem clampCases : Obligations.ClampCases :=
  ⟨fun _ => clamp_of_lt_zero, fun _ => clamp_of_180_lt, fun _ => clamp_of_between,
    fun _ hnan => clamp_of_between (lt_eq_false_of_nan_left hnan) (lt_eq_false_of_nan_right hnan),
    by decide, by decide, by decide⟩

/-! ### Which angles have a pulse width (R69, R71) -/

theorem angleToPulse32_eq_none_iff {a : F32Bits} : angleToPulse32 a = none ↔ isNaN a = true := by
  refine ⟨fun hnone => ?_, angleToPulse32_of_nan⟩
  by_contra hnan
  obtain ⟨p, hp⟩ := isNaN_eq_false_iff.1 (Bool.not_eq_true _ ▸ hnan)
  cases hnone.symm.trans (angleToPulse32_of_position hp)

/-- Settles O20: an angle that is no NaN lies somewhere, and there is a pulse width at every place. -/
theorem onlyNaNHasNoPulse : Obligations.OnlyNaNHasNoPulse := fun _ => angleToPulse32_eq_none_iff

/-- Settles O22: the four angles, computed. -/
theorem roundingShowsWhereTheSpecSays : Obligations.RoundingShowsWhereTheSpecSays := by
  unfold Obligations.RoundingShowsWhereTheSpecSays
  decide

/-- Settles O45: the five sums and differences, computed. -/
theorem loopAnglesThatStopChanging : Obligations.LoopAnglesThatStopChanging := by
  unfold Obligations.LoopAnglesThatStopChanging
  decide

/-! ### The ranges of the duty value (R74, R76, R118) -/

theorem toNat_pulseToDuty_le (p : PulseWidth) : (pulseToDuty p).toNat ≤ 215544 := by
  have hp := p.isLt
  rw [toNat_pulseToDuty]
  omega

/-- An angle's pulse width keeps the band of R70. -/
theorem angleToPulse32_bounds {a : F32Bits} {p : PulseWidth} (h : angleToPulse32 a = some p) :
    500 ≤ p.toNat ∧ p.toNat ≤ 2500 := by
  obtain ⟨q, -, hp⟩ := exists_position_of_angleToPulse32 h
  rw [hp]
  exact pulseAt_bounds q

/-- Settles O24: the pulse width of an angle is 500 to 2500, and the duty value is its quotient. -/
theorem dutyValueRanges : Obligations.DutyValueRanges := by
  refine ⟨fun a v hv => ?_, fun p => ?_⟩
  · obtain ⟨p, hp, rfl⟩ := Option.map_eq_some_iff.1 hv
    obtain ⟨hlo, hhi⟩ := angleToPulse32_bounds hp
    rw [toNat_pulseToDuty]
    omega
  · rw [toNat_pulseToDuty]
    omega

/-- Settles O25: the composition by definition, the key values computed. -/
theorem angleToDutyTruncatesTwice : Obligations.AngleToDutyTruncatesTwice := by
  refine ⟨fun _ => rfl, ?_⟩
  decide

/-! ### The advisory (R83) -/

theorem unusualPulse_iff (p : PulseWidth) : unusualPulse p = true ↔ p.toNat < 400 ∨ 2600 < p.toNat := by
  rw [unusualPulse, Bool.or_eq_true, decide_eq_true_eq, decide_eq_true_eq]
  rfl

/-- Settles O30: the two comparisons of the advisory. -/
theorem advisoryExactlyOutsideTheBand : Obligations.AdvisoryExactlyOutsideTheBand := unusualPulse_iff

/-- No angle's pulse width is unusual (R81). -/
theorem unusualPulse_of_angle {a : F32Bits} {p : PulseWidth} (h : angleToPulse32 a = some p) :
    unusualPulse p = false := by
  obtain ⟨hlo, hhi⟩ := angleToPulse32_bounds h
  rw [← Bool.not_eq_true, unusualPulse_iff]
  omega

end Sys2Proof.Machine

/-! PROOFS of the frame statements (spec/10_state.md R12 to R16, spec/20_memory.md R32): what a micro-operation, a
command's meaning and a step leave unchanged. -/

namespace Sys2Proof.Machine

/-! ### The frame of the inner `SetAngleOp` -/

section

variable (ch : Channel) (a : F32Bits) (s : State)

@[simp] theorem setAngleOp_initMask : (setAngleOp ch a s).state.initMask = s.initMask := by
  rw [setAngleOp_frame]
@[simp] theorem setAngleOp_phase : (setAngleOp ch a s).state.phase = s.phase := by
  rw [setAngleOp_frame]
@[simp] theorem setAngleOp_swCh : (setAngleOp ch a s).state.swCh = s.swCh := by
  rw [setAngleOp_frame]
@[simp] theorem setAngleOp_swA : (setAngleOp ch a s).state.swA = s.swA := by
  rw [setAngleOp_frame]
@[simp] theorem setAngleOp_swEnd : (setAngleOp ch a s).state.swEnd = s.swEnd := by
  rw [setAngleOp_frame]
@[simp] theorem setAngleOp_swDly : (setAngleOp ch a s).state.swDly = s.swDly := by
  rw [setAngleOp_frame]
@[simp] theorem setAngleOp_pending : (setAngleOp ch a s).state.pending = s.pending := by
  rw [setAngleOp_frame]
@[simp] theorem setAngleOp_responses : (setAngleOp ch a s).state.responses = s.responses := by
  rw [setAngleOp_frame]

end

/-- The centre command draws no free value, since 90 degrees has a pulse width (R55, R69). -/
theorem setAngleOp_center_draws (ch : Channel) (s : State) :
    (setAngleOp ch centerAngleBits s).state.draws = s.draws := by
  by_cases hok : validate ch s = .ok
  · rw [setAngleOp_of_some hok angleToPulse32_center, emit_draws]
  · rw [setAngleOp_of_ne hok]

/-- A write to one channel leaves every other channel's compare value (R29, R116). -/
theorem dutyOf_of_write {c c' : Channel} {tr tr' : List Event}
    (h : tr' = tr ∨ ∃ v, tr' = tr ++ [.writeDuty c v]) (hne : c' ≠ c) : dutyOf c' tr' = dutyOf c' tr := by
  rcases h with rfl | ⟨v, rfl⟩
  · rfl
  · exact dutyOf_append_of_not_written (by simp [hne]) tr

/-! ### The frame of a micro-operation (R15, R55, R86, R88) -/

section

variable (op : MicroOp) (s : State)

@[simp] theorem runOp_swCh : (runOp op s).swCh = s.swCh := by
  cases op <;> simp [runOp]
@[simp] theorem runOp_swEnd : (runOp op s).swEnd = s.swEnd := by
  cases op <;> simp [runOp]
@[simp] theorem runOp_swDly : (runOp op s).swDly = s.swDly := by
  cases op <;> simp [runOp]

variable {op}

theorem runOp_initMask (h : ∀ m, op ≠ .setMask m) : (runOp op s).initMask = s.initMask := by
  cases op with
  | setMask m => exact absurd rfl (h m)
  | _ => simp [runOp]

theorem runOp_swA (h : ∀ d, op ≠ .sweepSleep d) : (runOp op s).swA = s.swA := by
  cases op with
  | sweepSleep d => exact absurd rfl (h d)
  | _ => simp [runOp]

theorem runOp_responses (h : ∀ r, op ≠ .respond r) : (runOp op s).responses = s.responses := by
  cases op with
  | respond r => exact absurd rfl (h r)
  | _ => simp [runOp]

theorem runOp_phase (h : ∀ r, op ≠ .respond r) : (runOp op s).phase = s.phase := by
  cases op with
  | respond r => exact absurd rfl (h r)
  | _ => simp [runOp]

theorem runOp_pending (hsleep : ∀ d, op ≠ .sweepSleep d) (hrespond : ∀ r, op ≠ .respond r) :
    (runOp op s).pending = s.pending := by
  cases op with
  | sweepSleep d => exact absurd rfl (hsleep d)
  | respond r => exact absurd rfl (hrespond r)
  | _ => simp [runOp]

theorem runOp_draws (hwrite : op ≠ .sweepWrite) (hfinal : op ≠ .sweepFinal) :
    (runOp op s).draws = s.draws := by
  cases op with
  | sweepWrite => exact absurd rfl hwrite
  | sweepFinal => exact absurd rfl hfinal
  | centre c => exact setAngleOp_center_draws c s
  | _ => rfl

/-- The three operations that write a duty value write it on their own channel. -/
theorem runOp_trace_of_write {c : Channel}
    (h : op = .centre c ∨ (op = .sweepWrite ∨ op = .sweepFinal) ∧ c = s.swCh) :
    (runOp op s).trace = s.trace ∨ ∃ v, (runOp op s).trace = s.trace ++ [.writeDuty c v] := by
  rcases h with rfl | ⟨rfl | rfl, rfl⟩
  · exact setAngleOp_trace c centerAngleBits s
  · exact setAngleOp_trace s.swCh s.swA s
  · exact setAngleOp_trace s.swCh s.swEnd s

/-- The other operations issue an event that is no write, or none. -/
theorem runOp_trace_of_no_write (hcentre : ∀ c, op ≠ .centre c) (hwrite : op ≠ .sweepWrite)
    (hfinal : op ≠ .sweepFinal) :
    (runOp op s).trace = s.trace ∨
      ∃ e, (runOp op s).trace = s.trace ++ [e] ∧ ∀ c v, e ≠ .writeDuty c v := by
  cases op with
  | centre c => exact absurd rfl (hcentre c)
  | sweepWrite => exact absurd rfl hwrite
  | sweepFinal => exact absurd rfl hfinal
  | setMask m => exact .inl rfl
  | respond r => exact .inl rfl
  | bind c => exact .inr ⟨_, rfl, by simp⟩
  | configure c => exact .inr ⟨_, rfl, by simp⟩
  | enable c => exact .inr ⟨_, rfl, by simp⟩
  | sweepSleep d => exact .inr ⟨_, rfl, by simp⟩

theorem dutyOf_runOp_of_no_write (hcentre : ∀ c, op ≠ .centre c) (hwrite : op ≠ .sweepWrite)
    (hfinal : op ≠ .sweepFinal) (c : Channel) : dutyOf c (runOp op s).trace = dutyOf c s.trace := by
  obtain htrace | ⟨e, htrace, hne⟩ := runOp_trace_of_no_write s hcentre hwrite hfinal
  · rw [htrace]
  · rw [htrace]
    exact dutyOf_append_of_not_written (fun v hv => hne c v (List.mem_singleton.1 hv).symm) s.trace

end

/-- Settles O48: each clause is one of the frame's lemmas, or the operation's own line in `runOp`. -/
theorem sequencerFrame : Obligations.SequencerFrame := by
  intro op s
  refine ⟨runOp_host_eq op s, runOp_swCh op s, runOp_swEnd op s, runOp_swDly op s, runOp_initMask s,
    runOp_swA s, fun h => ⟨runOp_responses s h, runOp_phase s h⟩, runOp_pending s, runOp_draws s,
    ?bind, ?configure, ?enable, ?setMask, ?sleep, ?respond,
    fun c h => ⟨runOp_trace_of_write s h, fun c' => dutyOf_of_write (runOp_trace_of_write s h)⟩,
    dutyOf_runOp_of_no_write s⟩
  case bind => rintro c rfl; rfl
  case configure => rintro c rfl; rfl
  case enable => rintro c rfl; rfl
  case setMask => rintro m rfl; exact ⟨rfl, rfl⟩
  case sleep => rintro d rfl; rfl
  case respond => rintro r rfl; exact ⟨rfl, rfl, rfl⟩

/-! ### The frame of a command's meaning -/

/-- `SETANGLE` and `SETPULSE` write at most one duty value, on their channel (R81, R82). -/
theorem exec_trace_of_write {i : Instr} {s t : State} {ch : Channel} (h : exec i s = .next t)
    (hi : (∃ a, i = .setangle ch a) ∨ ∃ p, i = .setpulse ch p) :
    t.trace = s.trace ∨ ∃ v, t.trace = s.trace ++ [.writeDuty ch v] := by
  by_cases hok : validate ch s = .ok
  · rcases hi with ⟨a, rfl⟩ | ⟨p, rfl⟩
    · cases hp : angleToPulse32 a with
      | some p =>
        obtain rfl := Host.Outcome.next.inj ((execSetangle_of_some hok hp).symm.trans h)
        exact .inr ⟨_, rfl⟩
      | none =>
        obtain rfl := Host.Outcome.next.inj ((execSetangle_of_none hok hp).symm.trans h)
        exact .inr ⟨_, rfl⟩
    · obtain rfl := Host.Outcome.next.inj ((execSetpulse_of_ok hok).symm.trans h)
      exact .inr ⟨_, rfl⟩
  · have hservo := exec_servo_of_ne (i := i) (hi.imp_right .inl) hok
    obtain rfl := Host.Outcome.next.inj (hservo.symm.trans h)
    exact .inl rfl

/-- Settles O47: each way a meaning can end leaves all but what its own operation writes. -/
theorem commandFrame : Obligations.CommandFrame := by
  intro i s t h
  have hwrite := fun ch => exec_trace_of_write (ch := ch) h
  suffices hframe : t.initMask = s.initMask ∧ t.host = s.host ∧
      ((∀ ch a b d, i ≠ .sweep ch a b d) →
        t.swCh = s.swCh ∧ t.swA = s.swA ∧ t.swEnd = s.swEnd ∧ t.swDly = s.swDly) ∧
      ((∀ ch a, i ≠ .setangle ch a) → t.draws = s.draws) ∧
      ((∀ ch a, i ≠ .setangle ch a) → (∀ ch p, i ≠ .setpulse ch p) → t.trace = s.trace) by
    obtain ⟨hmask, hhost, hsweep, hdraws, htrace⟩ := hframe
    exact ⟨hmask, hhost, hsweep, hdraws, htrace, fun ch hi =>
      ⟨hwrite ch hi, fun c => dutyOf_of_write (hwrite ch hi)⟩⟩
  obtain ⟨m, rfl, rfl⟩ | ⟨ch, rfl, rfl⟩ | ⟨ch, -, -, rfl⟩ | ⟨ch, a, p, rfl, -, -, rfl⟩ |
    ⟨ch, a, rfl, -, -, rfl⟩ | ⟨ch, p, rfl, -, rfl⟩ | ⟨ch, a, b, d, rfl, -, -, -, rfl⟩ := exec_cases h
  · exact ⟨rfl, rfl, fun _ => ⟨rfl, rfl, rfl, rfl⟩, fun _ => rfl, fun _ _ => rfl⟩
  · exact ⟨rfl, rfl, fun _ => ⟨rfl, rfl, rfl, rfl⟩, fun _ => rfl, fun _ _ => rfl⟩
  · exact ⟨rfl, rfl, fun _ => ⟨rfl, rfl, rfl, rfl⟩, fun _ => rfl, fun _ _ => rfl⟩
  · exact ⟨rfl, rfl, fun _ => ⟨rfl, rfl, rfl, rfl⟩, fun _ => rfl, fun hi => absurd rfl (hi ch a)⟩
  · exact ⟨rfl, rfl, fun _ => ⟨rfl, rfl, rfl, rfl⟩, fun hi => absurd rfl (hi ch a),
      fun hi => absurd rfl (hi ch a)⟩
  · exact ⟨rfl, rfl, fun _ => ⟨rfl, rfl, rfl, rfl⟩, fun _ => rfl, fun _ hi => absurd rfl (hi ch p)⟩
  · exact ⟨rfl, rfl, fun hi => absurd rfl (hi ch a b d), fun _ => rfl, fun _ _ => rfl⟩

end Sys2Proof.Machine

/-! PROOFS of the statements on responses (spec/30_encoding.md R46, spec/60_exceptions.md R109) and on single steps
(spec/10_state.md R12, R13, spec/20_memory.md R32, spec/70_reset_and_hazards.md R133): the response a command owes,
and what one step can issue, answer and change. -/

namespace Sys2Proof.Machine

/-! ### The micro-operations a command has left to do -/

theorem mem_configureOps {op : MicroOp} {c : Channel} :
    op ∈ configureOps c ↔ op = .bind c ∨ op = .configure c ∨ op = .enable c := by
  simp [configureOps]

theorem mem_initOps {op : MicroOp} {m : ChannelMask} :
    op ∈ initOps m ↔ (∃ c ∈ channelsOf m, op = .bind c ∨ op = .configure c ∨ op = .enable c) ∨
      op = .setMask m ∨ (∃ c ∈ channelsOf m, op = .centre c) ∨ op = .respond okResponse := by
  simp [initOps, okResponse, mem_configureOps, eq_comm (a := op)]

theorem respond_mem_initOps {r : Response} {m : ChannelMask} :
    MicroOp.respond r ∈ initOps m ↔ r = okResponse := by
  simp [mem_initOps]

theorem setMask_mem_initOps {m m' : ChannelMask} : MicroOp.setMask m ∈ initOps m' ↔ m = m' := by
  simp [mem_initOps]

theorem mem_sweepLoop {op : MicroOp} {d : Direction} {a stop : F32Bits} (h : op ∈ sweepLoop d a stop) :
    op = .sweepWrite ∨ op = .sweepSleep d ∨ op = .sweepFinal ∨ op = .respond okResponse := by
  cases hbefore : beforeEnd d a stop with
  | true =>
    rw [sweepLoop_of_beforeEnd hbefore] at h
    simp only [List.mem_cons, List.not_mem_nil, or_false] at h
    exact h.imp_right .inl
  | false =>
    rw [sweepLoop_of_not_beforeEnd hbefore] at h
    simp only [List.mem_cons, List.not_mem_nil, or_false] at h
    exact .inr (.inr h)

theorem respond_mem_sweepLoop {r : Response} {d : Direction} {a stop : F32Bits}
    (h : MicroOp.respond r ∈ sweepLoop d a stop) : r = okResponse := by
  simpa using mem_sweepLoop h

theorem setMask_not_mem_sweepLoop {m : ChannelMask} {d : Direction} {a stop : F32Bits} :
    MicroOp.setMask m ∉ sweepLoop d a stop := fun h => by
  simpa using mem_sweepLoop h

/-- Only the delay of a sweep puts something new into what is left to do: the rest of its loop (R86, R87). -/
theorem mem_runOp_pending {op x : MicroOp} {s : State} (h : x ∈ (runOp op s).pending) :
    x ∈ s.pending ∨ ∃ d a stop, x ∈ sweepLoop d a stop := by
  cases op with
  | sweepSleep d => exact .inr ⟨d, _, _, h⟩
  | respond r => cases h
  | bind _ | configure _ | enable _ | setMask _ | centre _ | sweepWrite | sweepFinal =>
    rw [runOp_pending s (by simp) (by simp)] at h
    exact .inl h

/-! ### Responses (R46) -/

/-- Settles O12: the word of each response, field by field. -/
theorem responseWordLayout : Obligations.ResponseWordLayout := by
  rintro ⟨status, adv, result⟩
  cases status <;> cases adv <;> cases result <;> decide

/-- What failed validation reports is in the row of each servo command. -/
theorem mayAnswer_raise {ch : Channel} {s : State} {i : Instr}
    (hservo : (∃ a, i = .setangle ch a) ∨ (∃ p, i = .setpulse ch p) ∨ (∃ a b d, i = .sweep ch a b d)) :
    MayAnswer i ⟨validate ch s, false, false⟩ := by
  have hlegal := validate_ne_illegalCommand (ch := ch) (s := s)
  rcases hservo with ⟨a, rfl⟩ | ⟨p, rfl⟩ | ⟨a, b, d, rfl⟩
  · exact ⟨hlegal, rfl, rfl⟩
  · exact ⟨hlegal, Bool.noConfusion, rfl⟩
  · exact ⟨hlegal, rfl, rfl⟩

theorem mayAnswer_of_owed {i : Instr} {r r' : Response} (hr : MayAnswer i r)
    (h : MicroOp.respond r' ∈ [MicroOp.respond r]) : MayAnswer i r' := by
  obtain rfl : r' = r := by simpa using h
  exact hr

/-- Settles O13: by the ways a command's meaning can end; an angle's pulse width is never unusual, so `SETANGLE`
owes no advisory. -/
theorem commandsAnswerAsTheTableSays : Obligations.CommandsAnswerAsTheTableSays := by
  refine ⟨fun i s t h => ?_, fun op s r h => ?_⟩
  · obtain ⟨m, rfl, rfl⟩ | ⟨ch, rfl, rfl⟩ | ⟨ch, hservo, -, rfl⟩ | ⟨ch, a, p, rfl, -, hp, rfl⟩ |
      ⟨ch, a, rfl, -, -, rfl⟩ | ⟨ch, p, rfl, -, rfl⟩ | ⟨ch, a, b, d, rfl, -, -, -, rfl⟩ := exec_cases h
    · exact .inr ⟨rfl, rfl, fun r => respond_mem_initOps.1⟩
    · exact .inl ⟨_, ⟨rfl, rfl⟩, rfl, rfl, rfl⟩
    · exact .inl ⟨_, mayAnswer_raise hservo, rfl, rfl, rfl⟩
    · exact .inr ⟨rfl, rfl, fun r => mayAnswer_of_owed ⟨by simp, unusualPulse_of_angle hp, rfl⟩⟩
    · exact .inr ⟨rfl, rfl, fun r => mayAnswer_of_owed ⟨by simp, rfl, rfl⟩⟩
    · exact .inr ⟨rfl, rfl, fun r => mayAnswer_of_owed ⟨by simp, fun _ => rfl, rfl⟩⟩
    · refine .inr ⟨rfl, rfl, fun r hr => ?_⟩
      rw [begin_pending, sweepStart_eq_sweepLoop] at hr
      rw [respond_mem_sweepLoop hr]
      exact ⟨by simp [okResponse], rfl, rfl⟩
  · exact (mem_runOp_pending h).imp_right fun ⟨_, _, _, hmem⟩ => respond_mem_sweepLoop hmem

/-! ### Commands read nothing of the responses (R109) -/

/-- A command adds its own response to whatever responses there are, and reads none of them. -/
theorem exec_responses {i : Instr} {s t : State} (h : exec i s = .next t) :
    ∃ own, t.responses = s.responses ++ own ∧
      ∀ rs, exec i { s with responses := rs } = .next { t with responses := rs ++ own } := by
  obtain ⟨m, rfl, rfl⟩ | ⟨ch, rfl, rfl⟩ | ⟨ch, hservo, hne, rfl⟩ | ⟨ch, a, p, rfl, hok, hp, rfl⟩ |
    ⟨ch, a, rfl, hok, hp, rfl⟩ | ⟨ch, p, rfl, hok, rfl⟩ | ⟨ch, a, b, d, rfl, hok, ha, hb, rfl⟩ :=
    exec_cases h
  · exact ⟨[], by simp, fun rs => by rw [List.append_nil]; rfl⟩
  · exact ⟨_, rfl, fun rs => rfl⟩
  · exact ⟨_, rfl, fun rs => exec_servo_of_ne (s := { s with responses := rs }) hservo hne⟩
  · exact ⟨[], by simp, fun rs => by rw [List.append_nil]; exact execSetangle_of_some hok hp⟩
  · exact ⟨[], by simp, fun rs => by rw [List.append_nil]; exact execSetangle_of_none hok hp⟩
  · exact ⟨[], by simp, fun rs => by rw [List.append_nil]; exact execSetpulse_of_ok hok⟩
  · exact ⟨[], by simp, fun rs => by rw [List.append_nil]; exact execSweep_of_ok hok ha hb⟩

/-- A command answers a next state, or is a sweep with a NaN on a channel that passes validation (R90). -/
theorem exec_next_or_refused (i : Instr) (s : State) :
    (∃ t, exec i s = .next t) ∨
    ∃ ch a b d, i = .sweep ch a b d ∧ validate ch s = .ok ∧ (F32.isNaN a = true ∨ F32.isNaN b = true) := by
  cases i with
  | init m => exact .inl ⟨_, rfl⟩
  | isinit ch => exact .inl ⟨_, rfl⟩
  | setangle ch a => exact .inl ⟨_, rfl⟩
  | setpulse ch p => exact .inl ⟨_, rfl⟩
  | sweep ch a b d =>
    by_cases hok : validate ch s = .ok
    · by_cases hnan : F32.isNaN a = true ∨ F32.isNaN b = true
      · exact .inr ⟨ch, a, b, d, rfl, hok, hnan⟩
      · simp only [not_or, Bool.not_eq_true] at hnan
        exact .inl ⟨_, execSweep_of_ok hok hnan.1 hnan.2⟩
    · exact .inl ⟨_, execSweep_of_ne hok⟩

/-- Refusals read nothing of the responses either. -/
theorem exec_refused_responses {i : Instr} {s : State} {r : Refusal} (h : exec i s = .refused r)
    (rs : List ResponseWord) : exec i { s with responses := rs } = .refused r := by
  obtain ⟨t, ht⟩ | ⟨ch, a, b, d, rfl, hok, hnan⟩ := exec_next_or_refused i s
  · cases ht.symm.trans h
  · obtain rfl := Host.Outcome.refused.inj ((execSweep_of_nan hok hnan).symm.trans h)
    exact execSweep_of_nan (s := { s with responses := rs }) hok hnan

/-- A raise in an idle block adds its response and nothing else (R104). -/
theorem raise_of_idle {s : State} (hidle : s.phase = .idle) (hpending : s.pending = []) (c : Status) :
    raise c s = { s with responses := s.responses ++ [(⟨c, false, false⟩ : Response).word] } :=
  raise_accept_of_idle hidle hpending c s.host

/-- Settles O29: after a raise the state differs in its responses only, which no command reads. -/
theorem failureLeavesTheNextCommandAlone : Obligations.FailureLeavesTheNextCommandAlone := by
  intro c s j hidle hpending
  rw [raise_of_idle hidle hpending]
  refine ⟨fun u hu => ?_, fun r hr => exec_refused_responses hr _⟩
  obtain ⟨own, hown, hexec⟩ := exec_responses hu
  exact ⟨own, hown, hexec _⟩

/-! ### What a step issues (R32) -/

theorem runOp_issues (op : MicroOp) (s : State) :
    ((runOp op s).trace = s.trace ∧ (runOp op s).responses = s.responses) ∨
    (∃ e, (runOp op s).trace = s.trace ++ [e] ∧ (runOp op s).responses = s.responses) ∨
    (∃ r, (runOp op s).trace = s.trace ∧ (runOp op s).responses = s.responses ++ [r] ∧
      (runOp op s).phase = .idle) := by
  have hwrite : ∀ c, (op = .centre c ∨ (op = .sweepWrite ∨ op = .sweepFinal) ∧ c = s.swCh) →
      ((runOp op s).trace = s.trace ∧ (runOp op s).responses = s.responses) ∨
      ∃ e, (runOp op s).trace = s.trace ++ [e] ∧ (runOp op s).responses = s.responses := by
    intro c h
    have hresponses : (runOp op s).responses = s.responses :=
      runOp_responses s (by rcases h with rfl | ⟨rfl | rfl, -⟩ <;> simp)
    exact (runOp_trace_of_write s h).imp (⟨·, hresponses⟩) fun ⟨v, hv⟩ => ⟨_, hv, hresponses⟩
  cases op with
  | respond r => exact .inr (.inr ⟨_, rfl, rfl, rfl⟩)
  | setMask m => exact .inl ⟨rfl, rfl⟩
  | bind _ | configure _ | enable _ | sweepSleep _ => exact .inr (.inl ⟨_, rfl, rfl⟩)
  | centre c => exact (hwrite c (.inl rfl)).imp_right .inl
  | sweepWrite => exact (hwrite s.swCh (.inr ⟨.inl rfl, rfl⟩)).imp_right .inl
  | sweepFinal => exact (hwrite s.swCh (.inr ⟨.inr rfl, rfl⟩)).imp_right .inl

theorem exec_issues {i : Instr} {s t : State} (h : exec i s = .next t) :
    (t.trace = s.trace ∧ t.responses = s.responses) ∨
    (∃ e, t.trace = s.trace ++ [e] ∧ t.responses = s.responses) ∨
    (∃ r, t.trace = s.trace ∧ t.responses = s.responses ++ [r] ∧ t.phase = .idle) := by
  obtain ⟨m, -, rfl⟩ | ⟨ch, -, rfl⟩ | ⟨ch, -, -, rfl⟩ | ⟨ch, a, p, -, -, -, rfl⟩ | ⟨ch, a, -, -, -, rfl⟩ |
    ⟨ch, p, -, -, rfl⟩ | ⟨ch, a, b, d, -, -, -, -, rfl⟩ := exec_cases h
  · exact .inl ⟨rfl, rfl⟩
  · exact .inr (.inr ⟨_, rfl, rfl, rfl⟩)
  · exact .inr (.inr ⟨_, rfl, rfl, rfl⟩)
  · exact .inr (.inl ⟨_, rfl, rfl⟩)
  · exact .inr (.inl ⟨_, rfl, rfl⟩)
  · exact .inr (.inl ⟨_, rfl, rfl⟩)
  · exact .inl ⟨rfl, rfl⟩

/-- Settles O51: a micro-operation and the meaning of an accepted word issue at most one thing each; the other
steps issue nothing, or one response. -/
theorem stepIssuesAtMostOne : Obligations.StepIssuesAtMostOne := by
  intro s t h
  obtain ⟨rest, -, rfl⟩ | ⟨host, -, -, rfl⟩ | ⟨host, op, rest, -, -, -, rfl⟩ |
    ⟨w, rest, i, -, -, -, hexec⟩ | ⟨w, rest, e, -, -, -, rfl⟩ := step_cases h
  · exact .inl ⟨rfl, rfl⟩
  · exact .inl ⟨rfl, rfl⟩
  · exact runOp_issues op { s with host := host, pending := rest }
  · exact exec_issues (s := accept rest s) hexec
  · exact .inr (.inr ⟨_, rfl, rfl, rfl⟩)

/-! ### What a step does to the register (R12, R13) -/

/-- Settles O49: of the micro-operations only phase 2 writes the register, and no command's meaning does. -/
theorem onlyInitWritesTheMask : Obligations.OnlyInitWritesTheMask := by
  intro s t h
  obtain ⟨rest, hhost, rfl⟩ | ⟨host, -, -, rfl⟩ | ⟨host, op, rest, -, hbusy, hpending, rfl⟩ |
    ⟨w, rest, i, -, -, -, hexec⟩ | ⟨w, rest, e, -, -, -, rfl⟩ := step_cases h
  · exact .inr (.inl ⟨rest, hhost, rfl⟩)
  · exact .inl rfl
  · by_cases hop : ∃ m, op = .setMask m
    · obtain ⟨m, rfl⟩ := hop
      exact .inr (.inr ⟨m, rest, hbusy, hpending, rfl⟩)
    · exact .inl (runOp_initMask _ fun m hm => hop ⟨m, hm⟩)
  · exact .inl (commandFrame i _ t hexec).1
  · exact .inl rfl

/-- Of the commands only `INIT` leaves a write of the register to do, with its operand (R55). -/
theorem eq_init_of_setMask_mem {i : Instr} {s t : State} {m : ChannelMask} (h : exec i s = .next t)
    (hm : MicroOp.setMask m ∈ t.pending) : i = .init m := by
  obtain ⟨m', rfl, rfl⟩ | ⟨ch, -, rfl⟩ | ⟨ch, -, -, rfl⟩ | ⟨ch, a, p, -, -, -, rfl⟩ |
    ⟨ch, a, -, -, -, rfl⟩ | ⟨ch, p, -, -, rfl⟩ | ⟨ch, a, b, d, -, -, -, -, rfl⟩ := exec_cases h
  · rw [setMask_mem_initOps.1 hm]
  · cases hm
  · cases hm
  · simp at hm
  · simp at hm
  · simp at hm
  · rw [begin_pending, sweepStart_eq_sweepLoop] at hm
    exact absurd hm setMask_not_mem_sweepLoop

/-- Settles O50: a micro-operation leaves what was pending or a sweep's loop, and of the commands only `INIT`
begins with a write of the register. -/
theorem onlyInitSchedulesAMaskWrite : Obligations.OnlyInitSchedulesAMaskWrite := by
  intro s t m h hm
  obtain ⟨rest, -, rfl⟩ | ⟨host, -, -, rfl⟩ | ⟨host, op, rest, -, -, hpending, rfl⟩ |
    ⟨w, rest, i, hhost, hidle, hdecode, hexec⟩ | ⟨w, rest, e, -, -, -, rfl⟩ := step_cases h
  · cases hm
  · exact .inl hm
  · obtain hmem | ⟨d, a, stop, hmem⟩ := mem_runOp_pending hm
    · exact .inl (hpending ▸ List.mem_cons_of_mem _ hmem)
    · exact absurd hmem setMask_not_mem_sweepLoop
  · exact .inr ⟨w, rest, hidle, hhost, eq_init_of_setMask_mem hexec hm ▸ hdecode⟩
  · cases hm

/-- Settles O56: a channel's state is its bit of the register, which only phase 2 and reset write. -/
theorem channelStatesChangeOnlyByInitOrReset : Obligations.ChannelStatesChangeOnlyByInitOrReset := by
  intro s t c h hne
  simp only [isInitialized_eq_getLsbD] at hne ⊢
  obtain hsame | ⟨rest, hhost, -⟩ | ⟨m, rest, hbusy, hpending, hmask⟩ := onlyInitWritesTheMask s t h
  · exact absurd (by rw [hsame]) hne
  · exact .inl ⟨rest, hhost⟩
  · refine .inr ⟨m, rest, hbusy, hpending, ?_⟩
    rw [hmask, eq_comm, Bool.and_eq_right_iff_imp, decide_eq_true_iff]
    exact BitVec.lt_of_getLsbD

/-! ### Before the first `INIT` (R133) -/

/-- With no channel initialised, validation fails on every channel. -/
theorem validate_of_initMask_zero {ch : Channel} {s : State} (h : s.initMask = 0x0000#16) :
    validate ch s = if ch.toNat < 16 then .notInitialized else .invalidChannel := by
  split
  · next hlt => exact validate_eq_notInitialized_iff.2 ⟨hlt, by simp [maskBit, h]⟩
  · next hge => exact validate_eq_invalidChannel_iff.2 (Nat.not_lt.1 hge)

theorem exec_servo_of_initMask_zero {ch : Channel} {s : State} {i : Instr} (h : s.initMask = 0x0000#16)
    (hservo : (∃ a, i = .setangle ch a) ∨ (∃ p, i = .setpulse ch p) ∨ (∃ a b d, i = .sweep ch a b d)) :
    ∃ t r, exec i s = .next t ∧ t.trace = s.trace ∧ t.initMask = 0x0000#16 ∧ t.phase = .idle ∧
      t.responses = s.responses ++ [r] ∧
      r = if ch.toNat < 16 then 0x00000002#32 else 0x00000001#32 := by
  have hv := validate_of_initMask_zero (ch := ch) h
  have hne : validate ch s ≠ .ok := by rw [hv]; split <;> simp
  refine ⟨_, _, exec_servo_of_ne hservo hne, rfl, h, rfl, rfl, ?_⟩
  rw [hv]
  split <;> rfl

/-- Settles O59: validation fails on every channel, and `ISINIT` reads a zero bit. -/
theorem beforeInitNothingTouchesTheBackend : Obligations.BeforeInitNothingTouchesTheBackend := by
  intro s i hmask hinit
  cases i with
  | init m => exact absurd rfl (hinit m)
  | isinit ch =>
    refine ⟨_, _, exec_isinit ch s, rfl, hmask, rfl, rfl, ?_⟩
    rw [hmask, BitVec.getLsbD_zero]
    rfl
  | setangle ch a => exact exec_servo_of_initMask_zero hmask (.inl ⟨a, rfl⟩)
  | setpulse ch p => exact exec_servo_of_initMask_zero hmask (.inr (.inl ⟨p, rfl⟩))
  | sweep ch a b d => exact exec_servo_of_initMask_zero hmask (.inr (.inr ⟨a, b, d, rfl⟩))

/-- Settles O57: the reset state, read off its fields. -/
theorem resetValues : Obligations.ResetValues :=
  ⟨rfl, rfl, fun c => (isInitialized_eq_getLsbD c State.reset).trans BitVec.getLsbD_zero⟩

end Sys2Proof.Machine

/-! PROOFS of the remaining command statements (spec/40_channel_registry.md R55, spec/42_servo_commands.md R81 to
R88): the run of an `INIT`, of a single write and its response, and of one step of a sweep. -/

namespace Sys2Proof.Machine

open F32

/-! ### `INIT` (R55) -/

theorem channelsOf_eq (mask : ChannelMask) :
    channelsOf mask = ((List.range 16).filter fun c => mask.getLsbD c).map (BitVec.ofNat 8) := by
  rw [channelsOf, List.filter_map]
  refine congrArg _ (List.filter_congr fun c hc => ?_)
  have hlt : c < 16 := List.mem_range.1 hc
  rw [Function.comp_apply, maskBit, BitVec.toNat_ofNat, Nat.mod_eq_of_lt (by omega)]

/-- Settles O14: the run of `runs_init`, with the channels and their events written out. -/
theorem initRunsToCompletion : Obligations.InitRunsToCompletion := by
  intro mask s hquiet
  refine ⟨decode_encode (.init mask), _, rfl, ?_⟩
  have hruns := runs_init mask hquiet
  rw [channelsOf_eq] at hruns
  convert hruns using 1
  rw [afterInit, initEvents, channelsOf_eq, ← List.append_assoc]
  rfl

/-! ### A write and its response (R81, R82) -/

/-- The response a command owes is its next step (R32). -/
theorem runs_respond {s : State} (hquiet : Quiet s) (r : Response) :
    Runs 1 (begin [.respond r] s) (respond r s) :=
  runs_one_iff.2 (step_begin_cons hquiet (.respond r) [])

theorem validate_eq_ok {ch : Channel} {s : State} (hch : ch.toNat < 16)
    (hmask : s.initMask.getLsbD ch.toNat = true) : validate ch s = .ok :=
  validate_eq_ok_iff.2 ⟨hch, hmask⟩

theorem advisoryResponse_word (b : Bool) :
    (⟨.ok, b, false⟩ : Response).word = if b = true then 0x00000004#32 else 0x00000000#32 := by
  cases b <;> rfl

/-- Settles O31: validation decides between the raise of O26 and one write with its response. -/
theorem setpulseWritesAndAnswers : Obligations.SetpulseWritesAndAnswers := by
  intro ch p s
  obtain ⟨hinvalid, hnotInit⟩ := failedValidationIsANoOp ch s (.setpulse ch p) (.inr (.inl ⟨p, rfl⟩))
  refine ⟨decode_encode (.setpulse ch p), hinvalid, hnotInit, fun hquiet hch hmask => ?_⟩
  refine ⟨_, pulseToDuty p, toNat_pulseToDuty p, execSetpulse_of_ok (validate_eq_ok hch hmask), rfl, ?_⟩
  have hruns := runs_respond (s := emit (.writeDuty ch (pulseToDuty p)) s) hquiet
    ⟨.ok, unusualPulse p, false⟩
  rw [respond, advisoryResponse_word] at hruns
  simp only [unusualPulse_iff] at hruns
  exact hruns

/-- `SETANGLE` with a pulse width writes its duty value and owes a plain `OK` (R81). -/
theorem exec_setangle_of_some {ch : Channel} {a : F32Bits} {p : PulseWidth} {s : State}
    (hok : validate ch s = .ok) (hp : angleToPulse32 a = some p) :
    exec (.setangle ch a) s =
      .next (begin [.respond okResponse] (emit (.writeDuty ch (pulseToDuty p)) s)) := by
  rw [exec, execSetangle_of_some hok hp, unusualPulse_of_angle hp, okResponse]

theorem exists_angleToPulse32 {a : F32Bits} (h : isNaN a = false) : ∃ p, angleToPulse32 a = some p := by
  obtain ⟨q, hq⟩ := isNaN_eq_false_iff.1 h
  exact ⟨_, angleToPulse32_of_position hq⟩

/-- Settles O32: an angle that is no NaN has a pulse width. -/
theorem setangleWritesAndAnswers : Obligations.SetangleWritesAndAnswers := by
  intro ch a s hquiet hch hmask hnan
  obtain ⟨p, hp⟩ := exists_angleToPulse32 hnan
  exact ⟨_, p, hp, exec_setangle_of_some (validate_eq_ok hch hmask) hp, rfl,
    runs_respond (s := emit (.writeDuty ch (pulseToDuty p)) s) hquiet okResponse⟩

/-- Settles O33: a NaN has no pulse width, so the duty value is drawn. -/
theorem setangleOfNaNDrawsADuty : Obligations.SetangleOfNaNDrawsADuty := by
  intro ch a s hquiet hch hmask hnan
  exact ⟨_, execSetangle_of_none (validate_eq_ok hch hmask) (angleToPulse32_of_nan hnan),
    runs_respond (s := drawDuty ch s) hquiet okResponse⟩

/-- Settles O34: the duty value comes from the angle alone. -/
theorem sameAngleSameEvent : Obligations.SameAngleSameEvent := by
  intro ch a s s' hnan hch hmask hmask'
  obtain ⟨p, hp⟩ := exists_angleToPulse32 hnan
  exact ⟨_, _, pulseToDuty p, exec_setangle_of_some (validate_eq_ok hch hmask) hp,
    exec_setangle_of_some (validate_eq_ok hch hmask') hp, rfl, rfl⟩

/-- Settles O35: the trace gets one `WriteDuty` more, and each view of the backend reads it. -/
theorem setpulseWritesOneCompareValue : Obligations.SetpulseWritesOneCompareValue := by
  intro ch p s hch hmask
  refine ⟨_, execSetpulse_of_ok (validate_eq_ok hch hmask), ?_⟩
  simp only [begin_trace, emit_trace]
  refine ⟨?_, fun c hne => dutyOf_of_write (.inr ⟨_, rfl⟩) hne, fun c => ?_, fun h => ?_, fun h => ?_⟩
  · rw [dutyOf_append, dutyOf_writeDuty_self, Option.some_or]
  · rw [boundSlice_append, boundSlice_writeDuty, Option.none_or]
  · rw [sliceDivider_append, sliceDivider_writeDuty, Option.none_or]
  · rw [sliceEnabled_append, sliceEnabled_writeDuty, Option.none_or]

/-! ### Sweep entry (R84, R85, R90) -/

/-- Settles O36: the entry of a sweep is its latch and the head of its loop. -/
theorem sweepEntryLatches : Obligations.SweepEntryLatches := by
  intro ch a b d s hch hmask ha hb
  rw [exec, execSweep_of_ok (validate_eq_ok hch hmask) ha hb, sweepStart_eq]
  rfl

/-- Settles O37: past validation the two angles are looked at first. -/
theorem sweepOfNaNIsRefused : Obligations.SweepOfNaNIsRefused := fun _ _ _ _ _ hch hmask hnan =>
  execSweep_of_nan (validate_eq_ok hch hmask) hnan

/-! ### One step of a sweep, and its end (R86 to R88) -/

/-- A busy block is at the head of what it has pending. -/
theorem begin_pending_self {s : State} (hbusy : s.phase = .busy) {ops : List MicroOp}
    (hpending : s.pending = ops) : begin ops s = s := by
  rw [begin, ← hbusy, ← hpending]

/-- One loop step: a write and a delay, and the head of the loop again (R86, R87). -/
theorem runs_loopStep {s : State} {v : DutyValue} (d : Direction) (hquiet : Quiet s)
    (hok : validate s.swCh s = .ok) (hv : angleToDuty s.swA = some v) :
    Runs 2 (begin [.sweepWrite, .sweepSleep d] s)
      (begin (sweepLoop d (advanceAngle d s.swA) s.swEnd) (afterLoopStep d v s)) := by
  refine runs_begin_cons hquiet ?_
  rw [runOp_sweepWrite hok hv]
  refine runs_begin_cons (s := emit (.writeDuty s.swCh v) s) hquiet ?_
  rw [runOp_sweepSleep, runs_zero]

/-- The state in which a sweep ends that wrote `v` last (R88). -/
def afterFinalCall (v : DutyValue) (s : State) : State :=
  respond okResponse (emit (.writeDuty s.swCh v) s)

/-- The end of a sweep: one write and the response (R88). -/
theorem runs_finalCall {s : State} {v : DutyValue} (hquiet : Quiet s) (hok : validate s.swCh s = .ok)
    (hv : angleToDuty s.swEnd = some v) :
    Runs 2 (begin [.sweepFinal, .respond okResponse] s) (afterFinalCall v s) := by
  refine runs_begin_cons hquiet ?_
  rw [runOp_sweepFinal hok hv]
  exact runs_respond (s := emit (.writeDuty s.swCh v) s) hquiet okResponse

theorem advanceAngle_up (a : F32Bits) : advanceAngle .up a = add a 0x3F800000 := by
  rw [advanceAngle, sweepStepBits_eq]
  rfl

theorem advanceAngle_down (a : F32Bits) : advanceAngle .down a = sub a 0x3F800000 := by
  rw [advanceAngle, sweepStepBits_eq]
  rfl

/-- Settles O38: the loop step, with the advance and the loop test of each direction written out. -/
theorem sweepStepWritesSleepsAdvances : Obligations.SweepStepWritesSleepsAdvances := by
  intro s v hquiet hbusy hch hmask hv
  have hloop := fun d (hpending : s.pending = [.sweepWrite, .sweepSleep d]) =>
    begin_pending_self hbusy hpending ▸ runs_loopStep d hquiet (validate_eq_ok hch hmask) hv
  refine ⟨fun hpending => ?_, fun hpending => ?_⟩
  · have hruns := hloop .up hpending
    rw [begin, afterLoopStep, advanceAngle_up, sweepLoop, beforeEnd, ← hbusy] at hruns
    exact hruns
  · have hruns := hloop .down hpending
    rw [begin, afterLoopStep, advanceAngle_down, sweepLoop, beforeEnd, ← hbusy] at hruns
    exact hruns

/-- Settles O39: the final call on the end angle, then the response. -/
theorem sweepFinalCallSetsTheEnd : Obligations.SweepFinalCallSetsTheEnd := by
  intro s v hquiet hbusy hch hmask hv hpending
  have hruns := runs_finalCall hquiet (validate_eq_ok hch hmask) hv
  rwa [begin_pending_self hbusy (ops := [.sweepFinal, .respond okResponse]) hpending] at hruns

theorem emitAll_append (es es' : List Event) (s : State) :
    emitAll (es ++ es') s = emitAll es' (emitAll es s) := by
  simp [emitAll]

/-- A loop step that leaves the loop angle, before the end, only issues its two events (R90 item 2). -/
theorem runs_stuckStep {s : State} {v : DutyValue} {d : Direction} (hquiet : Quiet s)
    (hok : validate s.swCh s = .ok) (hv : angleToDuty s.swA = some v)
    (hstuck : advanceAngle d s.swA = s.swA) (hbefore : beforeEnd d s.swA s.swEnd = true) :
    Runs 2 (begin [.sweepWrite, .sweepSleep d] s)
      (begin [.sweepWrite, .sweepSleep d] (emitAll [.writeDuty s.swCh v, .sleep s.swDly] s)) := by
  have hruns := runs_loopStep d hquiet hok hv
  rwa [afterLoopStep, hstuck, sweepLoop_of_beforeEnd hbefore] at hruns

theorem runs_stuckLoop {s : State} {v : DutyValue} {d : Direction} (hquiet : Quiet s)
    (hok : validate s.swCh s = .ok) (hv : angleToDuty s.swA = some v)
    (hstuck : advanceAngle d s.swA = s.swA) (hbefore : beforeEnd d s.swA s.swEnd = true) (n : Nat) :
    Runs (2 * n) (begin [.sweepWrite, .sweepSleep d] s)
      (begin [.sweepWrite, .sweepSleep d]
        (emitAll ((List.range n).flatMap fun _ => [.writeDuty s.swCh v, .sleep s.swDly]) s)) := by
  induction n with
  | zero => simp
  | succ n ih =>
    rw [List.range_succ, List.flatMap_append, List.flatMap_singleton, emitAll_append]
    exact ih.trans (runs_stuckStep (s := emitAll _ s) hquiet hok hv hstuck hbefore)

/-- Settles O44: a loop step that leaves the loop angle leaves the loop where it was. -/
theorem stuckSweepHangs : Obligations.StuckSweepHangs := by
  intro s v d n hquiet hbusy hch hmask hv hstuck hpending
  have hloop : advanceAngle d s.swA = s.swA ∧ beforeEnd d s.swA s.swEnd = true := by
    rcases hstuck with ⟨rfl, hangle, hbefore⟩ | ⟨rfl, hangle, hbefore⟩
    · exact ⟨(advanceAngle_up _).trans hangle, hbefore⟩
    · exact ⟨(advanceAngle_down _).trans hangle, hbefore⟩
  have hruns := runs_stuckLoop hquiet (validate_eq_ok hch hmask) hv hloop.1 hloop.2 n
  rw [begin_pending_self hbusy hpending] at hruns
  rwa [emitAll, begin, ← hbusy, ← hpending] at hruns

end Sys2Proof.Machine

/-! PROOFS of the statements on whole sweeps (spec/42_servo_commands.md R90, R91): the events of `SweepEvents` are run
in as many steps as there are events, they exist wherever the loop angle moves, and they alternate. -/

namespace Sys2Proof.Machine

open F32

/-! ### A sweep that ends, run forward (R86 to R88) -/

/-- The events of a sweep that ends are run one a step, and the response after them. -/
theorem SweepEvents.runs {ch : Channel} {delay : DelayMs} {d : Direction} {stop a : F32Bits}
    {es : List Event} (h : SweepEvents ch delay d stop a es) :
    ∀ {s : State}, s.swCh = ch → s.swDly = delay → s.swEnd = stop → s.swA = a → Quiet s →
      validate s.swCh s = .ok →
      ∃ u, Runs (es.length + 1) (begin (sweepLoop d a stop) s) u ∧ u.phase = .idle ∧
        u.trace = s.trace ++ es ∧ u.responses = s.responses ++ [okResponse.word] := by
  induction h with
  | final hend hv =>
    rintro s rfl rfl rfl rfl hquiet hok
    rw [sweepLoop_of_not_beforeEnd hend]
    exact ⟨_, runs_finalCall hquiet hok hv, rfl, rfl, rfl⟩
  | @loop a v es hbefore hv hrest ih =>
    rintro s rfl rfl rfl rfl hquiet hok
    obtain ⟨u, hruns, hidle, htrace, hresponses⟩ :=
      ih (s := afterLoopStep d v s) rfl rfl rfl rfl hquiet hok
    rw [sweepLoop_of_beforeEnd hbefore]
    refine ⟨u, ?_, hidle, by simpa [afterLoopStep] using htrace, hresponses⟩
    convert (runs_loopStep d hquiet hok hv).trans hruns using 1
    simp only [List.length_cons]
    omega

/-- A sweep's events are pairs of a write and a delay, and one last write (R91). -/
theorem SweepEvents.alternate {ch : Channel} {delay : DelayMs} {d : Direction} {stop a : F32Bits}
    {es : List Event} (h : SweepEvents ch delay d stop a es) :
    ∃ (vs : List DutyValue) (v : DutyValue),
      es = vs.flatMap (fun x => [.writeDuty ch x, .sleep delay]) ++ [.writeDuty ch v] := by
  induction h with
  | final => exact ⟨[], _, rfl⟩
  | loop _ _ _ ih =>
    obtain ⟨vs, v, rfl⟩ := ih
    exact ⟨_ :: vs, v, rfl⟩

/-- Settles O41: the events of a sweep that has ended alternate. -/
theorem sweepTraceAlternates : Obligations.SweepTraceAlternates := by
  intro ch a b d s t u k hhost hch hmask hexec hruns hidle
  have hok := validate_eq_ok hch hmask
  obtain ⟨p, q, ha, hb, rfl⟩ := exists_position_of_exec_sweep hok hexec
  obtain ⟨es, hes, htrace, -⟩ :=
    exists_sweepEvents_of_runs (s := latchSweep ch a b d s) hhost hok ha hb hruns hidle
  obtain ⟨vs, v, rfl⟩ := hes.alternate
  exact ⟨vs, v, htrace.trans (List.append_assoc ..).symm⟩

/-! ### Where the loop angle moves to -/

/-- What one step in a direction adds to the loop angle's place, in units (R86). -/
def stepPlace : Direction → Int
  | .up => one
  | .down => -one

/-- One step puts the loop angle where the exact sum rounds to, an infinity too (R86). -/
theorem position_advanceAngle_eq (d : Direction) {a : F32Bits} {p : Int}
    (ha : position (ofBits a) = some p) :
    position (ofBits (advanceAngle d a)) = some (roundPlace (p + stepPlace d)) := by
  rw [advanceAngle_eq]
  rcases ofBits_cases a with hnan | ⟨neg, hinf⟩ | ⟨neg, mag, hrep, hlt, hfin⟩
  · rw [hnan] at ha
    cases ha
  · rw [hinf] at ha ⊢
    obtain rfl := Option.some.inj ha
    cases d <;> cases neg <;> decide
  · rw [hfin] at ha ⊢
    obtain rfl := Option.some.inj ha
    cases d
    · exact position_addVal_fin neg false mag one
    · exact position_addVal_fin neg true mag one

/-- The place of a pattern needs no rounding. -/
theorem roundPlace_of_position {a : F32Bits} {p : Int} (ha : position (ofBits a) = some p) :
    roundPlace p = p := by
  rcases ofBits_cases a with hnan | ⟨neg, hinf⟩ | ⟨neg, mag, hrep, hlt, hfin⟩
  · rw [hnan] at ha
    cases ha
  · rw [hinf] at ha
    obtain rfl := Option.some.inj ha
    cases neg <;> decide
  · rw [hfin] at ha
    obtain rfl := Option.some.inj ha
    exact roundPlace_signed hrep hlt

/-- `x` comes strictly before `y` in a sweep's direction. -/
def Before (d : Direction) (x y : Int) : Prop :=
  match d with
  | .up => x < y
  | .down => y < x

theorem beforeEnd_iff {d : Direction} {a stop : F32Bits} {p q : Int} (ha : position (ofBits a) = some p)
    (hstop : position (ofBits stop) = some q) : beforeEnd d a stop = true ↔ Before d p q := by
  cases d
  · exact lt_iff ha hstop
  · exact lt_iff hstop ha

/-- The duty value of an angle that lies at `p`. -/
def dutyValueAt (p : Int) : DutyValue := pulseToDuty (BitVec.ofNat 16 (pulseAt p))

theorem angleToDuty_eq {a : F32Bits} {p : Int} (ha : position (ofBits a) = some p) :
    angleToDuty a = some (dutyValueAt p) := by
  rw [angleToDuty, config_angleToPulse, angleToPulse32_of_position ha, Option.map_some, dutyValueAt]

/-! ### Exactly representable loop angles (R91) -/

/-- The place after `k` exact steps from `p`. -/
def exactPlace (d : Direction) (p : Int) (k : Nat) : Int := p + k * stepPlace d

@[simp] theorem exactPlace_zero (d : Direction) (p : Int) : exactPlace d p 0 = p := by
  simp [exactPlace]

theorem exactPlace_succ (d : Direction) (p : Int) (k : Nat) :
    exactPlace d p (k + 1) = exactPlace d (p + stepPlace d) k := by
  simp only [exactPlace, Nat.cast_succ]
  ring

/-- The events of a sweep from `p` to `q` whose `n` loop steps are exact. -/
def exactEvents (ch : Channel) (delay : DelayMs) (d : Direction) (p q : Int) (n : Nat) : List Event :=
  (List.range n).flatMap (fun k => [.writeDuty ch (dutyValueAt (exactPlace d p k)), .sleep delay]) ++
    [.writeDuty ch (dutyValueAt q)]

theorem exactEvents_succ (ch : Channel) (delay : DelayMs) (d : Direction) (p q : Int) (n : Nat) :
    exactEvents ch delay d p q (n + 1) =
      .writeDuty ch (dutyValueAt p) :: .sleep delay :: exactEvents ch delay d (p + stepPlace d) q n := by
  simp [exactEvents, List.range_succ_eq_map, List.flatMap_map, exactPlace_succ]

theorem length_exactEvents (ch : Channel) (delay : DelayMs) (d : Direction) (p q : Int) (n : Nat) :
    (exactEvents ch delay d p q n).length = 2 * n + 1 := by
  simp [exactEvents, List.length_flatMap, Nat.mul_comm]

/-- Where the first `n` places need no rounding and are before the end, and the next is not, the sweep makes
exactly those `n` loop steps. -/
theorem sweepEvents_exactEvents (ch : Channel) (delay : DelayMs) {d : Direction} {stop : F32Bits} {q : Int}
    (hstop : position (ofBits stop) = some q) {n : Nat} :
    ∀ {a : F32Bits} {p : Int}, position (ofBits a) = some p →
      (∀ k < n, Before d (exactPlace d p k) q) → ¬ Before d (exactPlace d p n) q →
      (∀ k ≤ n, roundPlace (exactPlace d p k) = exactPlace d p k) →
      SweepEvents ch delay d stop a (exactEvents ch delay d p q n) := by
  induction n with
  | zero =>
    intro a p ha _ hend _
    rw [exactPlace_zero, ← beforeEnd_iff ha hstop, Bool.not_eq_true] at hend
    exact .final hend (angleToDuty_eq hstop)
  | succ n ih =>
    intro a p ha hbefore hend hexact
    have hnext : position (ofBits (advanceAngle d a)) = some (p + stepPlace d) := by
      have h1 := hexact 1 (by omega)
      rw [exactPlace_succ, exactPlace_zero] at h1
      rw [position_advanceAngle_eq d ha, h1]
    rw [exactEvents_succ]
    rw [exactPlace_succ] at hend
    refine .loop ((beforeEnd_iff ha hstop).2 ?_) (angleToDuty_eq ha)
      (ih hnext (fun k hk => ?_) hend fun k hk => ?_)
    · simpa using hbefore 0 (by omega)
    · simpa only [exactPlace_succ] using hbefore (k + 1) (by omega)
    · simpa only [exactPlace_succ] using hexact (k + 1) (by omega)

/-- The hypothesis of `SweepStepCountIsTheCeiling` in the direction in which the sweep's loop is tested: `n` is the
least number of exact steps that reach the end. -/
theorem ceiling_in_entryDirection {a b : F32Bits} {A B : Int} {n : Nat} {x : Nat → F32Bits}
    (ha : position (ofBits a) = some A) (hb : position (ofBits b) = some B)
    (h : (A ≤ B ∧ (B - A ≤ n * one ∧ (n = 0 ∨ (n - 1 : Int) * one < B - A)) ∧
        ∀ k ≤ n, position (ofBits (x k)) = some (A + k * one)) ∨
      (B ≤ A ∧ (A - B ≤ n * one ∧ (n = 0 ∨ (n - 1 : Int) * one < A - B)) ∧
        ∀ k ≤ n, position (ofBits (x k)) = some (A - k * one))) :
    (∀ k < n, Before (entryDirection a b) (exactPlace (entryDirection a b) A k) B) ∧
      ¬ Before (entryDirection a b) (exactPlace (entryDirection a b) A n) B ∧
      ∀ k ≤ n, position (ofBits (x k)) = some (exactPlace (entryDirection a b) A k) := by
  have hone : (0 : Int) < one := Int.natCast_pos.2 unit_pos
  have hmul : ∀ k < n, (k : Int) * one ≤ (n - 1 : Int) * one := fun k hk =>
    Int.mul_le_mul_of_nonneg_right (by omega) hone.le
  rcases h with ⟨hAB, ⟨hreach, hleast⟩, hplaces⟩ | ⟨hBA, ⟨hreach, hleast⟩, hplaces⟩
  · cases hlt : lt a b with
    | true =>
      simp only [entryDirection, hlt, if_true, Before, exactPlace, stepPlace]
      refine ⟨fun k hk => ?_, by omega, hplaces⟩
      have hk' := hmul k hk
      omega
    | false =>
      have hBA := position_le_of_lt_eq_false hb ha hlt
      have hn : n = 0 := by
        by_contra hn
        have hpos := hmul 0 (by omega)
        omega
      subst hn
      refine ⟨fun k hk => absurd hk k.not_lt_zero, ?_, fun k hk => ?_⟩
      · simp only [entryDirection, hlt, Bool.false_eq_true, if_false, Before, exactPlace_zero]
        omega
      · obtain rfl := Nat.le_zero.1 hk
        simpa using hplaces 0 le_rfl
  · have hlt : lt a b = false := Bool.eq_false_iff.2 fun h => hBA.not_gt ((lt_iff ha hb).1 h)
    simp only [entryDirection, hlt, Bool.false_eq_true, if_false, Before, exactPlace, stepPlace, mul_neg,
      ← sub_eq_add_neg]
    refine ⟨fun k hk => ?_, by omega, hplaces⟩
    have hk' := hmul k hk
    omega

/-- Settles O42: the sweep's events are those of the exact places, and two for each loop step. -/
theorem sweepStepCountIsTheCeiling : Obligations.SweepStepCountIsTheCeiling := by
  intro ch a b d s A B n x hquiet hch hmask ha hb hx0 h
  have hok := validate_eq_ok hch hmask
  obtain ⟨hbefore, hend, hplaces⟩ := ceiling_in_entryDirection ha hb h
  have hes := sweepEvents_exactEvents ch d hb ha hbefore hend
    fun k hk => roundPlace_of_position (hplaces k hk)
  obtain ⟨u, hruns, hidle, htrace, hresponses⟩ :=
    hes.runs (s := latchSweep ch a b d s) rfl rfl rfl rfl hquiet hok
  rw [length_exactEvents] at hruns
  refine ⟨_, u, dutyValueAt B, fun k => dutyValueAt (exactPlace (entryDirection a b) A k), ?_, hruns, hidle,
    fun k hk => angleToDuty_eq (hplaces k hk.le), angleToDuty_eq hb, ?_, hresponses⟩
  · rw [exec, execSweep_of_ok hok (isNaN_eq_false_iff.2 ⟨A, ha⟩) (isNaN_eq_false_iff.2 ⟨B, hb⟩),
      sweepStart_eq_sweepLoop]
  · rw [htrace, exactEvents, List.append_assoc]
    rfl

/-! ### Sweeps within plus or minus 2^24 (R90 item 3) -/

/-- 2^24, in units. -/
def sweepBound : Int := 2 ^ 24 * one

/-- The place lies within plus or minus 2^24. -/
def WithinSweepBound (p : Int) : Prop := -sweepBound ≤ p ∧ p ≤ sweepBound

/-- Below 2^24 rounding moves a place by at most half a degree. -/
theorem roundPlace_near {t : Int} (hlo : -sweepBound < t) (hhi : t < sweepBound) :
    2 * t - one ≤ 2 * roundPlace t ∧ 2 * roundPlace t ≤ 2 * t + one := by
  have hmag : t.natAbs ≤ 2 ^ 24 * one - 1 := by
    unfold sweepBound at hlo hhi
    omega
  have hscale : 2 ^ scale t.natAbs ≤ one := by
    have hmax : scale (2 ^ 24 * one - 1) = 149 := by decide
    exact Nat.pow_le_pow_right (by decide) (hmax ▸ scale_mono hmag)
  have hlimit : roundMag t.natAbs 1 ≤ limit := by
    have hmax : roundMag (2 ^ 24 * one - 1) 1 ≤ limit := by decide
    exact (roundMag_mono hmag Nat.one_pos).trans hmax
  have hnear := roundMag_near t.natAbs Nat.one_pos
  rw [Nat.div_one, Nat.one_mul, Nat.one_mul] at hnear
  rw [roundPlace, Nat.min_eq_right hlimit]
  by_cases hneg : t < 0
  · simp only [signed, hneg, decide_true, if_true]
    omega
  · simp only [signed, hneg, decide_false, Bool.false_eq_true, if_false]
    omega

theorem roundPlace_bound : roundPlace sweepBound = sweepBound := by decide

theorem roundPlace_neg_bound : roundPlace (-sweepBound) = -sweepBound := by decide

/-- Within the bounds one step moves the loop angle. -/
theorem before_roundPlace {d : Direction} {p q : Int} (h : Before d p q) (hp : WithinSweepBound p)
    (hq : WithinSweepBound q) : Before d p (roundPlace (p + stepPlace d)) := by
  have hone : (0 : Int) < one := Int.natCast_pos.2 unit_pos
  obtain ⟨hplo, hphi⟩ := hp
  obtain ⟨hqlo, hqhi⟩ := hq
  cases d with
  | up =>
    simp only [Before, stepPlace] at h ⊢
    by_cases ht : sweepBound ≤ p + one
    · have := roundPlace_mono ht
      rw [roundPlace_bound] at this
      omega
    · have := roundPlace_near (t := p + one) (by omega) (by omega)
      omega
  | down =>
    simp only [Before, stepPlace] at h ⊢
    by_cases ht : p + -one ≤ -sweepBound
    · have := roundPlace_mono ht
      rw [roundPlace_neg_bound] at this
      omega
    · have := roundPlace_near (t := p + -one) (by omega) (by omega)
      omega

/-- How far the loop angle is from the end, in units; 0 past it. -/
def distance (d : Direction) (p q : Int) : Nat :=
  match d with
  | .up => (q - p).toNat
  | .down => (p - q).toNat

theorem distance_lt {d : Direction} {p p' q : Int} (h : Before d p q) (h' : Before d p p') :
    distance d p' q < distance d p q := by
  cases d <;> simp only [Before, distance] at * <;> omega

theorem withinSweepBound_of_before {d : Direction} {p₀ p q : Int} (hle : InOrder d p₀ p)
    (h : Before d p q) (hp₀ : WithinSweepBound p₀) (hq : WithinSweepBound q) :
    WithinSweepBound p := by
  cases d <;> simp only [Before, InOrder, WithinSweepBound] at * <;> omega

/-- A sweep within the bounds ends: every loop step brings the loop angle nearer to the end. -/
theorem exists_sweepEvents_of_bounded (ch : Channel) (delay : DelayMs) {d : Direction} {stop a : F32Bits}
    {p₀ p q : Int} (hstop : position (ofBits stop) = some q) (ha : position (ofBits a) = some p)
    (hle : InOrder d p₀ p) (hp₀ : WithinSweepBound p₀) (hq : WithinSweepBound q) :
    ∃ es, SweepEvents ch delay d stop a es := by
  induction hn : distance d p q using Nat.strong_induction_on generalizing a p with
  | _ n ih =>
    subst hn
    cases hbefore : beforeEnd d a stop with
    | false => exact ⟨_, .final hbefore (angleToDuty_eq hstop)⟩
    | true =>
      have hpq := (beforeEnd_iff ha hstop).1 hbefore
      obtain ⟨p', ha', hpp'⟩ := position_advanceAngle d ha
      have hmoves : Before d p p' := by
        obtain rfl := Option.some.inj (ha'.symm.trans (position_advanceAngle_eq d ha))
        exact before_roundPlace hpq (withinSweepBound_of_before hle hpq hp₀ hq) hq
      obtain ⟨es, hes⟩ := ih _ (distance_lt hpq hmoves) ha' (hle.trans hpp') rfl
      exact ⟨_, .loop hbefore (angleToDuty_eq ha) hes⟩

theorem position_bound : position (ofBits 0x4B800000) = some sweepBound := by decide

theorem position_neg_bound : position (ofBits 0xCB800000) = some (-sweepBound) := by decide

/-- Settles O43: the events of such a sweep exist, and are run to the response. -/
theorem boundedSweepTerminates : Obligations.BoundedSweepTerminates := by
  intro ch a b d s hquiet hch hmask ha hb ha_hi ha_lo hb_hi hb_lo
  have hok := validate_eq_ok hch hmask
  obtain ⟨p, hp⟩ := isNaN_eq_false_iff.1 ha
  obtain ⟨q, hq⟩ := isNaN_eq_false_iff.1 hb
  obtain ⟨es, hes⟩ := exists_sweepEvents_of_bounded ch d (d := entryDirection a b) hq hp (.refl _ p)
    ⟨position_le_of_lt_eq_false position_neg_bound hp ha_lo,
      position_le_of_lt_eq_false hp position_bound ha_hi⟩
    ⟨position_le_of_lt_eq_false position_neg_bound hq hb_lo,
      position_le_of_lt_eq_false hq position_bound hb_hi⟩
  obtain ⟨u, hruns, hidle, -, hresponses⟩ :=
    hes.runs (s := latchSweep ch a b d s) rfl rfl rfl rfl hquiet hok
  refine ⟨_, _, u, ?_, hruns, hidle, hresponses⟩
  rw [exec, execSweep_of_ok hok ha hb, sweepStart_eq_sweepLoop]

end Sys2Proof.Machine

/-! PROOFS of the invariant statements (spec/10_state.md section 5, spec/42_servo_commands.md R89,
spec/60_exceptions.md R116, R118): what the ports have seen stays in order, and every step leads from one of the
legal positions to another. -/

namespace Sys2Proof.Machine

open F32

/-! ### What the invariant says of the ports -/

/-- The part of the invariant that speaks of what has crossed the ports, and of the register. -/
structure PortsOk (s : State) : Prop where
  responses_legal : ∀ w ∈ s.responses, ∃ r : Response, r.Legal ∧ w = r.word
  initialised_armed : ∀ c : Channel, c.toNat < 16 → maskBit s.initMask c = true → armed c s.trace
  trace_ok : TraceOk s.trace

theorem Inv.portsOk {s : State} (h : Inv s) : PortsOk s :=
  ⟨h.responses_legal, h.initialised_armed, h.trace_ok.of_append⟩

/-- One more event, in order where it stands (R118). -/
theorem PortsOk.emit {s : State} (h : PortsOk s) {e : Event} (he : EventOk s.trace e) :
    PortsOk (emit e s) :=
  ⟨h.responses_legal, fun c hc hm => armed_append _ (h.initialised_armed c hc hm), h.trace_ok.snoc he⟩

/-- A write to an initialised channel is in order (R116, R118). -/
theorem PortsOk.eventOk_writeDuty {s : State} (h : PortsOk s) {ch : Channel} {v : DutyValue}
    (hok : validate ch s = .ok) (hv : v.toNat ≤ 215544) : EventOk s.trace (.writeDuty ch v) := by
  obtain ⟨hch, hmask⟩ := validate_eq_ok_iff.1 hok
  exact ⟨hch, h.initialised_armed ch hch hmask, hv⟩

theorem PortsOk.respond {s : State} (h : PortsOk s) {r : Response} (hr : r.Legal) :
    PortsOk (respond r s) := by
  refine ⟨fun w hw => ?_, h.initialised_armed, h.trace_ok⟩
  rcases List.mem_append.1 hw with hw | hw
  · exact h.responses_legal w hw
  · exact ⟨r, hr, List.mem_singleton.1 hw⟩

/-! ### The legal positions -/

/-- Answering leaves the block idle and in order. -/
theorem PortsOk.inv_respond {s : State} (h : PortsOk s) {r : Response} (hr : r.Legal) :
    Inv (Machine.respond r s) :=
  have hports := h.respond hr
  ⟨⟨fun _ => rfl, fun _ => rfl⟩, .inl rfl, hports.responses_legal, hports.initialised_armed, by
    simpa [pendingEvents] using hports.trace_ok⟩

/-- A raise is the response of its condition (R104). -/
theorem PortsOk.inv_raise {s : State} (h : PortsOk s) (c : Status) : Inv (raise c s) :=
  h.inv_respond fun _ => ⟨rfl, rfl⟩

/-- A busy block that has no event of `INIT` to issue is in order at any legal position. -/
theorem PortsOk.inv_of_busy {s : State} (h : PortsOk s) (hbusy : s.phase = .busy)
    (hpending : s.pending ≠ []) (hevents : pendingEvents s.pending = [])
    (hposition : (∃ r, r.Legal ∧ s.pending = [.respond r]) ∨ Sweeping s ∨ Initialising s) : Inv s :=
  ⟨⟨fun hidle => Phase.noConfusion (hbusy.symm.trans hidle), fun hp => absurd hp hpending⟩, .inr hposition,
    h.responses_legal, h.initialised_armed, by rw [hevents, List.append_nil]; exact h.trace_ok⟩

theorem PortsOk.inv_begin_respond {s : State} (h : PortsOk s) {r : Response} (hr : r.Legal) :
    Inv (begin [.respond r] s) :=
  PortsOk.inv_of_busy (s := begin [.respond r] s) ⟨h.responses_legal, h.initialised_armed, h.trace_ok⟩ rfl
    (List.cons_ne_nil _ _) rfl (.inl ⟨r, hr, rfl⟩)

theorem okResponse_legal : okResponse.Legal := fun h => absurd rfl h

theorem Response.legal_of_ok (adv result : Bool) : (⟨.ok, adv, result⟩ : Response).Legal :=
  fun h => absurd rfl h

/-- What a sweep has pending, said once for its three places. -/
theorem Sweeping.pending_cases {s : State} (h : Sweeping s) :
    (∃ d, beforeEnd d s.swA s.swEnd = true ∧ s.pending = [.sweepWrite, .sweepSleep d]) ∨
    (∃ d, beforeEnd d s.swA s.swEnd = true ∧ s.pending = [.sweepSleep d]) ∨
    s.pending = [.sweepFinal, .respond okResponse] := by
  obtain ⟨-, -, -, hpending⟩ := h
  exact hpending

theorem Sweeping.pending_ne_nil {s : State} (h : Sweeping s) : s.pending ≠ [] := by
  obtain ⟨d, -, hp⟩ | ⟨d, -, hp⟩ | hp := h.pending_cases <;> simp [hp]

theorem Sweeping.pendingEvents_eq_nil {s : State} (h : Sweeping s) : pendingEvents s.pending = [] := by
  obtain ⟨d, -, hp⟩ | ⟨d, -, hp⟩ | hp := h.pending_cases <;> rw [hp] <;> rfl

theorem PortsOk.inv_of_sweeping {s : State} (h : PortsOk s) (hbusy : s.phase = .busy) (hs : Sweeping s) :
    Inv s :=
  h.inv_of_busy hbusy hs.pending_ne_nil hs.pendingEvents_eq_nil (.inr (.inl hs))

/-- The head of the loop is inside the sweep (R86 to R88). -/
theorem sweeping_of_sweepLoop {s : State} {d : Direction} (hok : validate s.swCh s = .ok)
    (ha : isNaN s.swA = false) (hstop : isNaN s.swEnd = false)
    (hpending : s.pending = sweepLoop d s.swA s.swEnd) : Sweeping s := by
  refine ⟨hok, ha, hstop, ?_⟩
  cases hbefore : beforeEnd d s.swA s.swEnd with
  | true => exact .inl ⟨d, hbefore, hpending.trans (sweepLoop_of_beforeEnd hbefore)⟩
  | false => exact .inr (.inr (hpending.trans (sweepLoop_of_not_beforeEnd hbefore)))

/-! ### One step inside a sweep (R86 to R89) -/

/-- An angle that is no NaN has a duty value, within the bound of R118. -/
theorem exists_angleToDuty {a : F32Bits} (h : isNaN a = false) :
    ∃ v, angleToDuty a = some v ∧ v.toNat ≤ 215544 := by
  obtain ⟨p, hp⟩ := exists_angleToPulse32 h
  exact ⟨pulseToDuty p, Option.map_eq_some_iff.2 ⟨p, hp, rfl⟩, toNat_pulseToDuty_le p⟩

theorem isNaN_advanceAngle (d : Direction) {a : F32Bits} (h : isNaN a = false) :
    isNaN (advanceAngle d a) = false := by
  obtain ⟨p, hp⟩ := isNaN_eq_false_iff.1 h
  exact isNaN_eq_false_iff.2 ⟨_, position_advanceAngle_eq d hp⟩

/-- The next micro-operation of a sweep: the write of the loop angle, the delay and the advance, or the final call,
each leading to another place of the sweep or to its response. -/
theorem Sweeping.step_cases {s : State} (h : Sweeping s) :
    ∃ op rest, s.pending = op :: rest ∧
      ((op = .sweepWrite ∧ Sweeping (runOp op { s with pending := rest }) ∧
          ∃ v, angleToDuty s.swA = some v ∧ v.toNat ≤ 215544 ∧
            runOp op { s with pending := rest } = emit (.writeDuty s.swCh v) { s with pending := rest }) ∨
        (∃ d, op = .sweepSleep d ∧ Sweeping (runOp op { s with pending := rest })) ∨
        (op = .sweepFinal ∧ rest = [.respond okResponse] ∧
          ∃ v, angleToDuty s.swEnd = some v ∧ v.toNat ≤ 215544 ∧
            runOp op { s with pending := rest } = emit (.writeDuty s.swCh v) { s with pending := rest })) := by
  obtain ⟨hok, ha, hstop, ⟨d, hbefore, hp⟩ | ⟨d, hbefore, hp⟩ | hp⟩ := h
  · obtain ⟨v, hv, hle⟩ := exists_angleToDuty ha
    have hrun := setAngleOp_state_of_duty (s := { s with pending := [.sweepSleep d] }) hok hv
    refine ⟨_, _, hp, .inl ⟨rfl, ?_, v, hv, hle, hrun⟩⟩
    exact (congrArg Sweeping hrun).mpr ⟨hok, ha, hstop, .inr (.inl ⟨d, hbefore, rfl⟩)⟩
  · exact ⟨_, _, hp, .inr (.inl ⟨d, rfl, sweeping_of_sweepLoop hok (isNaN_advanceAngle d ha) hstop rfl⟩)⟩
  · obtain ⟨v, hv, hle⟩ := exists_angleToDuty hstop
    exact ⟨_, _, hp, .inr (.inr ⟨rfl, rfl, v, hv, hle,
      setAngleOp_state_of_duty (s := { s with pending := [.respond okResponse] }) hok hv⟩)⟩

/-- What is pending does not touch the ports. -/
theorem PortsOk.with_pending {s : State} (h : PortsOk s) (ops : List MicroOp) :
    PortsOk { s with pending := ops } :=
  ⟨h.responses_legal, h.initialised_armed, h.trace_ok⟩

theorem Inv.runOp_of_sweeping {s : State} (h : Inv s) (hs : Sweeping s) (hbusy : s.phase = .busy)
    {op : MicroOp} {rest : List MicroOp} (hpending : s.pending = op :: rest) :
    Inv (runOp op { s with pending := rest }) := by
  have hports := h.portsOk
  have hok : validate s.swCh s = .ok := hs.1
  obtain ⟨op', rest', hpending', hcases⟩ := hs.step_cases
  obtain ⟨rfl, rfl⟩ := List.cons.inj (hpending'.symm.trans hpending)
  obtain ⟨rfl, hnext, v, -, hle, hrun⟩ | ⟨d, rfl, hnext⟩ | ⟨rfl, rfl, v, -, hle, hrun⟩ := hcases
  · rw [hrun] at hnext ⊢
    exact ((hports.with_pending rest').emit (hports.eventOk_writeDuty hok hle)).inv_of_sweeping hbusy hnext
  · have hsleep : PortsOk (Machine.emit (.sleep s.swDly) s) := hports.emit trivial
    exact PortsOk.inv_of_sweeping (s := runOp (.sweepSleep d) { s with pending := rest' })
      ⟨hsleep.responses_legal, hsleep.initialised_armed, hsleep.trace_ok⟩ hbusy hnext
  · rw [hrun]
    exact ((hports.with_pending [.respond okResponse]).emit (hports.eventOk_writeDuty hok hle)).inv_of_busy hbusy
      (List.cons_ne_nil _ _) rfl (.inl ⟨_, okResponse_legal, rfl⟩)

/-! ### One step inside an `INIT` (R55) -/

/-- A suffix of a concatenation begins in the first part or lies in the second. -/
theorem suffix_append_cases {α : Type} {x : α} {l a b : List α} (h : x :: l <:+ a ++ b) :
    (∃ a', x :: a' <:+ a ∧ l = a' ++ b) ∨ x :: l <:+ b := by
  rcases List.suffix_or_suffix_of_suffix h (List.suffix_append a b) with hb | ⟨t, ht⟩
  · exact .inr hb
  · cases t with
    | nil => exact .inr (ht ▸ List.suffix_rfl)
    | cons y t =>
      obtain ⟨rfl, rfl⟩ := List.cons.inj ht
      exact .inl ⟨t, List.suffix_append_self_iff.1 h, rfl⟩

theorem pendingEvents_eq_nil {ops : List MicroOp} (h : ∀ op ∈ ops, phase1Event op = none) :
    pendingEvents ops = [] := List.filterMap_eq_nil_iff.2 h

/-- Phase 3 of `INIT` and its response (R55). -/
def phase3Ops (m : ChannelMask) : List MicroOp := (channelsOf m).map .centre ++ [.respond okResponse]

theorem initOps_eq (m : ChannelMask) :
    initOps m = (channelsOf m).flatMap configureOps ++ .setMask m :: phase3Ops m := by
  simp [initOps, phase3Ops, okResponse]

theorem mem_phase3Ops {op : MicroOp} {m : ChannelMask} (h : op ∈ phase3Ops m) :
    (∃ c ∈ channelsOf m, op = .centre c) ∨ op = .respond okResponse := by
  simpa [phase3Ops, eq_comm (a := op)] using h

theorem phase1Event_of_mem_phase3Ops {op : MicroOp} {m : ChannelMask} (h : op ∈ phase3Ops m) :
    phase1Event op = none := by
  rcases mem_phase3Ops h with ⟨c, -, rfl⟩ | rfl <;> rfl

theorem setMask_not_mem_phase3Ops {m m' : ChannelMask} : MicroOp.setMask m' ∉ phase3Ops m := fun h => by
  simpa using mem_phase3Ops h

theorem exists_of_suffix_phase3Ops {op : MicroOp} {rest : List MicroOp} {m : ChannelMask}
    (h : op :: rest <:+ phase3Ops m) :
    (∃ c ∈ channelsOf m, op = .centre c ∧ rest ≠ []) ∨ (op = .respond okResponse ∧ rest = []) := by
  obtain ⟨ops, hops, rfl⟩ | hlast := suffix_append_cases h
  · obtain ⟨c, hc, rfl⟩ := List.mem_map.1 (hops.subset List.mem_cons_self)
    exact .inl ⟨c, hc, rfl, by simp⟩
  · rcases List.suffix_cons_iff.1 hlast with heq | hnil
    · exact .inr (List.cons.inj heq)
    · cases List.eq_nil_of_suffix_nil hnil

/-- Where an `INIT` stands, by its next micro-operation: in phase 1, at the write of the register, in phase 3, or at
its response (R55). -/
theorem initOps_suffix_cases {op : MicroOp} {rest : List MicroOp} {m : ChannelMask}
    (h : op :: rest <:+ initOps m) :
    ((∃ e, phase1Event op = some e) ∧ MicroOp.setMask m ∈ rest) ∨
    (op = .setMask m ∧ rest = phase3Ops m) ∨ op :: rest <:+ phase3Ops m := by
  rw [initOps_eq] at h
  obtain ⟨ops, hops, rfl⟩ | hlast := suffix_append_cases h
  · obtain ⟨c, -, hop⟩ := List.mem_flatMap.1 (hops.subset List.mem_cons_self)
    exact .inl ⟨phase1Event_of_mem_configureOps hop, by simp⟩
  · rcases List.suffix_cons_iff.1 hlast with heq | hphase3
    · exact .inr (.inl (List.cons.inj heq))
    · exact .inr (.inr hphase3)

/-- Phase 1 turns what is pending into what has been issued. -/
theorem Inv.runOp_of_phase1 {s : State} (h : Inv s) (hbusy : s.phase = .busy) {op : MicroOp}
    {rest : List MicroOp} {m : ChannelMask} (hpending : s.pending = op :: rest)
    (hsuffix : s.pending <:+ initOps m)
    (harmed : ∀ c : Channel, c.toNat < 16 → maskBit m c = true →
      armed c (s.trace ++ pendingEvents s.pending))
    {e : Event} (he : phase1Event op = some e) (hset : MicroOp.setMask m ∈ rest) :
    Inv (runOp op { s with pending := rest }) := by
  have htrace : s.trace ++ pendingEvents s.pending = (s.trace ++ [e]) ++ pendingEvents rest := by
    rw [hpending, pendingEvents, List.filterMap_cons_some he, List.append_assoc]
    rfl
  rw [runOp_of_phase1Event he]
  rw [htrace] at harmed
  have hne : rest ≠ [] := List.ne_nil_of_mem hset
  refine ⟨⟨fun hidle => Phase.noConfusion (hbusy.symm.trans hidle), fun hp => absurd hp hne⟩,
    .inr (.inr (.inr ⟨m, ?_, hne, harmed, fun hnot => absurd hset hnot⟩)), h.responses_legal,
    fun c hc hm => armed_append _ (h.initialised_armed c hc hm), htrace ▸ h.trace_ok⟩
  exact (hpending ▸ List.suffix_cons op rest).trans hsuffix

theorem phase3Ops_suffix_initOps (m : ChannelMask) : phase3Ops m <:+ initOps m := by
  rw [initOps_eq]
  exact (List.suffix_cons _ _).trans (List.suffix_append _ _)

/-- Once phase 2 is over, the rest of an `INIT` is a legal position. -/
theorem PortsOk.inv_of_phase3 {s : State} (h : PortsOk s) (hbusy : s.phase = .busy)
    (hne : s.pending ≠ []) (hsuffix : s.pending <:+ phase3Ops s.initMask) : Inv s := by
  have hevents : pendingEvents s.pending = [] :=
    pendingEvents_eq_nil fun op hop => phase1Event_of_mem_phase3Ops (hsuffix.subset hop)
  refine h.inv_of_busy hbusy hne hevents (.inr (.inr
    ⟨s.initMask, hsuffix.trans (phase3Ops_suffix_initOps _), hne, fun c hc hm => ?_, fun _ => rfl⟩))
  rw [hevents, List.append_nil]
  exact h.initialised_armed c hc hm

theorem Inv.runOp_of_initialising {s : State} (h : Inv s) (hs : Initialising s) (hbusy : s.phase = .busy)
    {op : MicroOp} {rest : List MicroOp} (hpending : s.pending = op :: rest) :
    Inv (runOp op { s with pending := rest }) := by
  obtain ⟨m, hsuffix, -, harmed, hmask⟩ := hs
  have hports := h.portsOk
  obtain ⟨⟨e, he⟩, hset⟩ | ⟨rfl, rfl⟩ | hphase3 := initOps_suffix_cases (hpending ▸ hsuffix)
  · exact h.runOp_of_phase1 hbusy hpending hsuffix harmed he hset
  · have hevents : pendingEvents s.pending = [] := by
      rw [hpending]
      exact pendingEvents_eq_nil (List.forall_mem_cons.2 ⟨rfl, fun _ => phase1Event_of_mem_phase3Ops⟩)
    rw [hevents, List.append_nil] at harmed
    exact PortsOk.inv_of_phase3 (s := { s with initMask := m, pending := phase3Ops m })
      ⟨hports.responses_legal, harmed, hports.trace_ok⟩ hbusy (by simp [phase3Ops]) List.suffix_rfl
  · obtain rfl : s.initMask = m := hmask (hpending ▸ fun hmem =>
      setMask_not_mem_phase3Ops (hphase3.subset hmem))
    obtain ⟨c, hc, rfl, hne⟩ | ⟨rfl, rfl⟩ := exists_of_suffix_phase3Ops hphase3
    · have hok : validate c s = .ok := validate_eq_ok_iff.2 (mem_channelsOf.1 hc)
      rw [runOp_centre (s := { s with pending := rest }) hok]
      exact ((hports.with_pending rest).emit (hports.eventOk_writeDuty hok (by decide))).inv_of_phase3 hbusy
        hne ((List.suffix_cons _ rest).trans hphase3)
    · exact (hports.with_pending []).inv_respond okResponse_legal

/-! ### Every step keeps the invariant -/

/-- The invariant does not look at the host. -/
theorem Inv.with_host {s : State} (h : Inv s) (host : List HostInput) : Inv { s with host := host } :=
  ⟨h.phase_idle_iff, h.position, h.responses_legal, h.initialised_armed, h.trace_ok⟩

theorem Inv.runOp {s : State} (h : Inv s) (hbusy : s.phase = .busy) {op : MicroOp} {rest : List MicroOp}
    (hpending : s.pending = op :: rest) : Inv (runOp op { s with pending := rest }) := by
  rcases h.position with hnil | ⟨r, hr, hrespond⟩ | hsweeping | hinit
  · exact absurd hnil (h.pending_ne_nil hbusy)
  · obtain ⟨rfl, rfl⟩ := List.cons.inj (hrespond.symm.trans hpending)
    exact (h.portsOk.with_pending []).inv_respond hr
  · exact h.runOp_of_sweeping hsweeping hbusy hpending
  · exact h.runOp_of_initialising hinit hbusy hpending

/-- An accepted `INIT` stands at the head of its phase 1 (R55). -/
theorem PortsOk.inv_begin_initOps {s : State} (h : PortsOk s) (m : ChannelMask) :
    Inv (begin (initOps m) s) := by
  have hne : initOps m ≠ [] := by simp [initOps]
  refine ⟨⟨fun hidle => Phase.noConfusion hidle, fun hp => absurd hp hne⟩,
    .inr (.inr (.inr ⟨m, List.suffix_rfl, hne, fun c hc hm => ?_, fun hnot => ?_⟩)),
    h.responses_legal, h.initialised_armed, ?_⟩
  · exact armed_of_phase1 _ (mem_channelsOf.2 ⟨hc, hm⟩)
  · exact absurd (setMask_mem_initOps.2 rfl) hnot
  · rw [begin_pending, pendingEvents_initOps]
    exact traceOk_phase1 (fun c hc => (mem_channelsOf.1 hc).1) h.trace_ok

/-- A command's meaning leads from what the ports have seen in order to a legal position. -/
theorem PortsOk.inv_of_exec {s t : State} (h : PortsOk s) {i : Instr} (hexec : exec i s = .next t) :
    Inv t := by
  obtain ⟨m, -, rfl⟩ | ⟨ch, -, rfl⟩ | ⟨ch, -, -, rfl⟩ | ⟨ch, a, p, -, hok, -, rfl⟩ | ⟨ch, a, -, hok, -, rfl⟩ |
    ⟨ch, p, -, hok, rfl⟩ | ⟨ch, a, b, d, -, hok, ha, hb, rfl⟩ := exec_cases hexec
  · exact h.inv_begin_initOps m
  · exact h.inv_respond (Response.legal_of_ok _ _)
  · exact h.inv_raise _
  · exact (h.emit (h.eventOk_writeDuty hok (toNat_pulseToDuty_le p))).inv_begin_respond
      (Response.legal_of_ok _ _)
  · have hdraw := h.emit (h.eventOk_writeDuty hok (freeDutyValue_le s.draws))
    exact PortsOk.inv_begin_respond (s := drawDuty ch s)
      ⟨hdraw.responses_legal, hdraw.initialised_armed, hdraw.trace_ok⟩ (Response.legal_of_ok _ _)
  · exact (h.emit (h.eventOk_writeDuty hok (toNat_pulseToDuty_le p))).inv_begin_respond
      (Response.legal_of_ok _ _)
  · have hsweeping : Sweeping (begin (sweepStart a b) (latchSweep ch a b d s)) :=
      sweeping_of_sweepLoop hok ha hb (sweepStart_eq_sweepLoop a b)
    exact PortsOk.inv_of_sweeping (s := begin _ _) ⟨h.responses_legal, h.initialised_armed, h.trace_ok⟩ rfl
      hsweeping

/-- Reset leaves the block idle with no channel initialised, whatever it was doing (R130). -/
theorem PortsOk.inv_applyReset {s : State} (h : PortsOk s) : Inv (applyReset s) :=
  ⟨⟨fun _ => rfl, fun _ => rfl⟩, .inl rfl, h.responses_legal,
    fun c _ hm => absurd hm (by simp [maskBit]), by simpa [pendingEvents] using h.trace_ok⟩

/-- Settles O52: a micro-operation leads from each position to the next one, and every other step to a position at
which a command begins or has ended. -/
theorem everyStepKeepsTheInvariant : Obligations.EveryStepKeepsTheInvariant := by
  intro s t hinv h
  obtain ⟨rest, -, rfl⟩ | ⟨host, -, -, rfl⟩ | ⟨host, op, rest, -, hbusy, hpending, rfl⟩ |
    ⟨w, rest, i, -, -, -, hexec⟩ | ⟨w, rest, e, -, -, -, rfl⟩ := step_cases h
  · exact (hinv.with_host rest).portsOk.inv_applyReset
  · exact hinv.with_host host
  · exact (hinv.with_host host).runOp (s := { s with host := host }) hbusy hpending
  · exact PortsOk.inv_of_exec (s := accept rest s)
      ⟨hinv.responses_legal, hinv.initialised_armed, hinv.portsOk.trace_ok⟩ hexec
  · exact PortsOk.inv_raise (s := accept rest s)
      ⟨hinv.responses_legal, hinv.initialised_armed, hinv.portsOk.trace_ok⟩ .illegalCommand

/-- Settles O53: nothing has crossed the ports, and nothing is pending. -/
theorem resetMeetsTheInvariant : Obligations.ResetMeetsTheInvariant :=
  ⟨⟨fun _ => rfl, fun _ => rfl⟩, .inl rfl, fun _ hw => absurd hw List.not_mem_nil,
    fun c _ hm => absurd hm (by simp [State.reset, maskBit]), traceOk_nil⟩

/-- A run keeps the invariant. -/
theorem Inv.of_runs {n : Nat} {s t : State} (h : Inv s) (hruns : Runs n s t) : Inv t := by
  induction n generalizing s with
  | zero => exact runs_zero.1 hruns ▸ h
  | succ n ih =>
    obtain ⟨u, hstep, hrest⟩ := runs_succ_iff.1 hruns
    exact ih (everyStepKeepsTheInvariant s u h hstep) hrest

/-- Settles O55: the invariant holds at reset, whatever the host will do, and along every run. -/
theorem everyRunKeepsTheBackendContract : Obligations.EveryRunKeepsTheBackendContract :=
  fun actions _ _ hruns => ((resetMeetsTheInvariant.with_host actions).of_runs hruns).portsOk.trace_ok

/-! ### Progress (R90, R140) -/

/-- A step without a word to accept always answers under the invariant. -/
theorem Inv.exists_tick {s : State} (h : Inv s) : ∃ t, tick s = .next t := by
  rcases s.phase.idle_or_busy with hidle | hbusy
  · exact ⟨s, tick_of_idle hidle⟩
  · obtain ⟨op, rest, hpending⟩ := List.exists_cons_of_ne_nil (h.pending_ne_nil hbusy)
    exact ⟨_, (tick_of_busy hbusy).trans (advance_cons hpending)⟩

theorem step_of_nothing {s : State} (h : s.host = []) : step s = tick s := by
  simp [step, stepBlock, h]

/-- An idle block answers a presented word, or refuses a sweep with a NaN on a channel that passes validation. -/
theorem exists_acceptWord_or_refused (w : CommandWord) (rest : List HostInput) (s : State) :
    (∃ t, acceptWord w rest s = .next t) ∨
    (acceptWord w rest s = .refused .nanSweepOperand ∧ ∃ ch a b d, decode w = .ok (.sweep ch a b d) ∧
      (isNaN a = true ∨ isNaN b = true) ∧ validate ch s = .ok) := by
  cases hdecode : decode w with
  | error e => exact .inl ⟨_, acceptWord_of_error hdecode rest s⟩
  | ok i =>
    rw [acceptWord_of_ok hdecode]
    obtain hnext | ⟨ch, a, b, d, rfl, hok, hnan⟩ := exec_next_or_refused i (accept rest s)
    · exact .inl hnext
    · exact .inr ⟨execSweep_of_nan hok hnan, ch, a, b, d, rfl, hnan, hok⟩

/-- Settles O54: only an accepted command can be refused, and only for a NaN of a sweep. -/
theorem nothingElseStopsTheBlock : Obligations.NothingElseStopsTheBlock := by
  intro s hinv
  match hhost : s.host with
  | [] => exact .inl (step_of_nothing hhost ▸ hinv.exists_tick)
  | .wait :: rest => exact .inl (step_of_wait hhost ▸ (hinv.with_host rest).exists_tick)
  | .reset :: rest => exact .inl ⟨_, step_of_reset hhost⟩
  | .present w :: rest =>
    rcases s.phase.idle_or_busy with hidle | hbusy
    · rw [step_of_presented hidle hhost]
      refine (exists_acceptWord_or_refused w rest s).imp_right ?_
      rintro ⟨hrefused, ch, a, b, d, hdecode, hnan, hok⟩
      exact ⟨hrefused, w, rest, ch, a, b, d, hidle, rfl, hdecode, hnan, validate_eq_ok_iff.1 hok⟩
    · obtain ⟨op, ops, hpending⟩ := List.exists_cons_of_ne_nil (hinv.pending_ne_nil hbusy)
      exact .inl ⟨_, step_of_quiet (.inr ⟨w, rest, hhost⟩) hbusy hpending⟩

/-! ### Nothing but reset interferes with a sweep (R89) -/

/-- Without a reset, the step of a busy block is its next micro-operation; the host is where it was, or has let a
step pass. -/
theorem exists_step_of_busy {s : State} {op : MicroOp} {rest : List MicroOp}
    (hreset : ∀ rest, s.host ≠ .reset :: rest) (hbusy : s.phase = .busy) (hpending : s.pending = op :: rest) :
    ∃ host, (host = s.host ∨ s.host = .wait :: host) ∧
      step s = .next (runOp op { s with host := host, pending := rest }) := by
  match hhost : s.host with
  | [] => exact ⟨[], .inl rfl, hhost ▸ step_of_quiet (.inl hhost) hbusy hpending⟩
  | .present w :: inputs =>
    exact ⟨.present w :: inputs, .inl rfl, hhost ▸ step_of_quiet (.inr ⟨w, inputs, hhost⟩) hbusy hpending⟩
  | .wait :: inputs =>
    refine ⟨inputs, .inr rfl, ?_⟩
    rw [step_of_wait hhost, tick_of_busy (s := { s with host := inputs }) hbusy]
    exact advance_cons (s := { s with host := inputs }) hpending
  | .reset :: inputs => exact absurd hhost (hreset inputs)

/-- Settles O40: the next micro-operation of a sweep is never the write of the register nor a response, so the
frame of the sequencer leaves all but its own event. -/
theorem nothingInterferesWithASweep : Obligations.NothingInterferesWithASweep := by
  intro s hinv hreset
  refine ⟨fun hs => ?_, fun hpending => ?_⟩
  · have hbusy := hinv.busy_of_pending_ne_nil hs.pending_ne_nil
    obtain ⟨op, rest, hpending⟩ := List.exists_cons_of_ne_nil hs.pending_ne_nil
    obtain ⟨host, hhost, hstep⟩ := exists_step_of_busy hreset hbusy hpending
    have hs' : Sweeping { s with host := host } := hs
    obtain ⟨op', rest', hpending', hcases⟩ := hs'.step_cases
    obtain ⟨rfl, rfl⟩ := List.cons.inj (hpending'.symm.trans hpending)
    obtain ⟨hset, hrespond⟩ : (∀ m, op' ≠ .setMask m) ∧ ∀ r, op' ≠ .respond r := by
      rcases hcases with ⟨rfl, -⟩ | ⟨d, rfl, -⟩ | ⟨rfl, -⟩ <;> simp
    refine ⟨hbusy, _, hstep, (runOp_phase _ hrespond).trans hbusy, ?place, runOp_initMask _ hset,
      by rwa [runOp_host_eq], runOp_swCh _ _, runOp_swEnd _ _, runOp_swDly _ _, runOp_responses _ hrespond,
      ?events⟩
    case place =>
      obtain ⟨-, hnext, -⟩ | ⟨d, -, hnext⟩ | ⟨-, rfl, v, -, -, hrun⟩ := hcases
      · exact .inl hnext
      · exact .inl hnext
      · exact .inr (congrArg State.pending hrun)
    case events =>
      obtain ⟨rfl, -, v, hv, -, hrun⟩ | ⟨d, rfl, -⟩ | ⟨rfl, -, v, hv, -, hrun⟩ := hcases
      · exact ⟨fun _ _ => ⟨v, hv, congrArg State.trace hrun⟩, fun _ _ h => (nomatch hpending.symm.trans h),
          fun _ h => (nomatch hpending.symm.trans h)⟩
      · exact ⟨fun _ h => (nomatch hpending.symm.trans h), fun _ _ _ => rfl,
          fun _ h => (nomatch hpending.symm.trans h)⟩
      · exact ⟨fun _ h => (nomatch hpending.symm.trans h), fun _ _ h => (nomatch hpending.symm.trans h),
          fun _ _ => ⟨v, hv, congrArg State.trace hrun⟩⟩
  · have hbusy := hinv.busy_of_pending_ne_nil (by simp [hpending])
    obtain ⟨host, hhost, hstep⟩ := exists_step_of_busy hreset hbusy hpending
    exact ⟨hbusy, _, hstep, rfl, rfl, hhost, rfl, rfl, rfl, rfl, rfl, rfl⟩

end Sys2Proof.Machine
